-- ==== Sys2Proof/Word.lean ====
section
/-! DEFINITION. The bit-vector types of the block: a command word or register value, a byte, a host register number. -/

namespace Sys2Proof

/-- A u32: a command word (R90), or a host register's value (R60). -/
abbrev Word := BitVec 32

/-- A u8: a byte on the bus, a peripheral register address, a scratch byte (R67, R24). -/
abbrev Byte := BitVec 8

/-- A host register number, 6 bits (R60). -/
abbrev RegNum := BitVec 6

end Sys2Proof
end

