-- ==== Sys2Proof/Syntax.lean ====
section
/-! DEFINITION. The commands of the block: one constructor per row of spec/opcode_table.json (R92). Each operand has the
width of its field (R94), so a term of `Instr` always fits its word. -/

namespace Sys2Proof

/-- The fourteen commands (R92), with the operands of R94 in the order of R98. -/
inductive Instr where
  /-- START: a start condition (R123). -/
  | start
  /-- RESTART: a repeated start condition (R124). -/
  | restart
  /-- STOP: a stop condition (R125). -/
  | stop
  /-- WRITE b: transmit one byte (R126). -/
  | write (b : Byte)
  /-- READ: receive one byte (R129). -/
  | read
  /-- ACK: acknowledge the received byte (R130). -/
  | ack
  /-- NACK: refuse a further byte (R131). -/
  | nack
  /-- WRREG reg, val: write one peripheral register (R150). -/
  | wrreg (reg val : Byte)
  /-- RDBLK reg, count: read consecutive peripheral registers (R151). -/
  | rdblk (reg count : Byte)
  /-- SETOSS oss: set the oversampling (R171). -/
  | setoss (oss : BitVec 2)
  /-- LOADCAL: decode the calibration bytes (R172). -/
  | loadcal
  /-- LOADUT: assemble the raw temperature (R173). -/
  | loadut
  /-- LOADUP: assemble the raw pressure (R174). -/
  | loadup
  /-- COMP: compute temperature and pressure (R190). -/
  | comp
deriving DecidableEq, Repr

end Sys2Proof
end

