-- ==== Sys2Proof/WellFormed.lean ====
section
/-! DEFINITION. Well-formedness, at the two places where a command can be ill formed: a command word that breaks the
must-be-zero rule or has an unassigned opcode (R93, R95), and a written operand that does not fit its field (R98). A term of
`Instr` itself carries its widths in its types, so nothing is left to check there. -/

namespace Sys2Proof

/-- The fields of a command word (R91). -/
def opField (w : Word) : BitVec 4 := w.extractLsb' 28 4
def rsvField (w : Word) : BitVec 4 := w.extractLsb' 24 4
def cntField (w : Word) : BitVec 8 := w.extractLsb' 16 8
def regField (w : Word) : BitVec 8 := w.extractLsb' 8 8
def dataField (w : Word) : BitVec 8 := w.extractLsb' 0 8

/-- The opcodes the map assigns: 0x1 to 0xE (R92, R95). -/
def assignedOp (w : Word) : Bool := opField w != 0x0 && opField w != 0xF

/-- The must-be-zero rule (R93): RSV for every opcode, and the fields its opcode does not use. -/
def mustBeZeroHolds (w : Word) : Bool :=
  rsvField w == 0 &&
  match opField w with
  | 0x4 => cntField w == 0 && regField w == 0
  | 0x8 => cntField w == 0
  | 0x9 => dataField w == 0
  | 0xA => cntField w == 0 && regField w == 0 && (dataField w).extractLsb' 2 6 == 0
  | _   => cntField w == 0 && regField w == 0 && dataField w == 0

/-- A word that spells a command: an assigned opcode and every must-be-zero bit clear (R93, R95). -/
def wellFormedWord (w : Word) : Bool := assignedOp w && mustBeZeroHolds w

/-- A number written for a u8 operand (R98): none where it does not fit, which is an assembly error. -/
def fitsByte (n : Nat) : Option Byte := if n < 256 then some (BitVec.ofNat 8 n) else none

/-- A number written for the oversampling setting, 0 to 3 (R98). -/
def fitsOss (n : Nat) : Option (BitVec 2) := if n < 4 then some (BitVec.ofNat 2 n) else none

/-- `WRITE b` from a written number (R98). -/
def writeOf (b : Nat) : Option Instr := (fitsByte b).map .write

/-- `WRREG reg, val` from written numbers (R98). -/
def wrregOf (reg val : Nat) : Option Instr := do return .wrreg (← fitsByte reg) (← fitsByte val)

/-- `RDBLK reg, count` from written numbers (R98): the count's legal range is checked at issue, not here (R94). -/
def rdblkOf (reg count : Nat) : Option Instr := do return .rdblk (← fitsByte reg) (← fitsByte count)

/-- `SETOSS oss` from a written number (R98). -/
def setossOf (oss : Nat) : Option Instr := (fitsOss oss).map .setoss

end Sys2Proof
end

