-- ==== Sys2Proof/Decode.lean ====
section
/-! DEFINITION. The decoder of rule R97 over the opcode map of rule R92, and the encoder, written from the field layout of
rule R91. -/

namespace Sys2Proof

/-- Why a word spells no command (R95). -/
inductive Illegal where
  /-- OP = 0x0 or OP = 0xF. -/
  | unassignedOpcode
  /-- An assigned opcode with a must-be-zero bit set (R93). -/
  | mustBeZeroBit
deriving DecidableEq, Repr

/-- One row of the opcode map (R92): the word spells the row's command exactly when `w AND mask = match`. -/
structure OpRow where
  mask    : Word
  pattern : Word
  build   : Word → Instr

/-- The row's test (R92). -/
def OpRow.spells (r : OpRow) (w : Word) : Bool := w &&& r.mask == r.pattern

/-- The framing primitives of the opcode map (R92), with the operands of R94. -/
def primitiveRows : List OpRow :=
  [ ⟨0xFFFFFFFF, 0x10000000, fun _ => .start⟩,
    ⟨0xFFFFFFFF, 0x20000000, fun _ => .restart⟩,
    ⟨0xFFFFFFFF, 0x30000000, fun _ => .stop⟩,
    ⟨0xFFFFFF00, 0x40000000, fun w => .write (dataField w)⟩,
    ⟨0xFFFFFFFF, 0x50000000, fun _ => .read⟩,
    ⟨0xFFFFFFFF, 0x60000000, fun _ => .ack⟩,
    ⟨0xFFFFFFFF, 0x70000000, fun _ => .nack⟩ ]

/-- The composite transactions of the opcode map (R92). -/
def compositeRows : List OpRow :=
  [ ⟨0xFFFF0000, 0x80000000, fun w => .wrreg (regField w) (dataField w)⟩,
    ⟨0xFF0000FF, 0x90000000, fun w => .rdblk (regField w) (cntField w)⟩ ]

/-- The datapath commands of the opcode map (R92). -/
def datapathRows : List OpRow :=
  [ ⟨0xFFFFFFFC, 0xA0000000, fun w => .setoss (w.extractLsb' 0 2)⟩,
    ⟨0xFFFFFFFF, 0xB0000000, fun _ => .loadcal⟩,
    ⟨0xFFFFFFFF, 0xC0000000, fun _ => .loadut⟩,
    ⟨0xFFFFFFFF, 0xD0000000, fun _ => .loadup⟩,
    ⟨0xFFFFFFFF, 0xE0000000, fun _ => .comp⟩ ]

/-- The opcode map's rows with OP in 0x1 to 0xE, in its order (R92). -/
def opRows : List OpRow := primitiveRows ++ compositeRows ++ datapathRows

/-- `Decode(w)` (R97): the command whose row the word meets, or why there is none (R95). -/
def decode (w : Word) : Except Illegal Instr :=
  match opRows.find? (·.spells w) with
  | some r => .ok (r.build w)
  | none   => .error (if assignedOp w then .mustBeZeroBit else .unassignedOpcode)

/-- A field of a 32-bit word: the value with its bit 0 at bit `lo` (R8). -/
def fieldAt {n : Nat} (lo : Nat) (v : BitVec n) : Word := v.setWidth 32 <<< lo

/-- A command word from its fields (R91). -/
def commandWord (op rsv : BitVec 4) (cnt reg data : Byte) : Word :=
  fieldAt 28 op ||| fieldAt 24 rsv ||| fieldAt 16 cnt ||| fieldAt 8 reg ||| fieldAt 0 data

/-- The one word that spells a command (R92 to R94): unused fields are zero. -/
def encode : Instr → Word
  | .start         => commandWord 0x1 0 0 0 0
  | .restart       => commandWord 0x2 0 0 0 0
  | .stop          => commandWord 0x3 0 0 0 0
  | .write b       => commandWord 0x4 0 0 0 b
  | .read          => commandWord 0x5 0 0 0 0
  | .ack           => commandWord 0x6 0 0 0 0
  | .nack          => commandWord 0x7 0 0 0 0
  | .wrreg reg val => commandWord 0x8 0 0 reg val
  | .rdblk reg cnt => commandWord 0x9 0 cnt reg 0
  | .setoss oss    => commandWord 0xA 0 0 0 (oss.setWidth 8)
  | .loadcal       => commandWord 0xB 0 0 0 0
  | .loadut        => commandWord 0xC 0 0 0 0
  | .loadup        => commandWord 0xD 0 0 0 0
  | .comp          => commandWord 0xE 0 0 0 0

/-- The command word that the bits of a table row's number give (R90: one 32-bit word, bit 0 least significant). -/
def wordOfBits (nbits w : Nat) : Word := BitVec.ofNat 32 (w % 2 ^ nbits)

/-- What the decoder reads from an instruction whose bits are `w`; every command is one 32-bit word (R90, R96), so bits
beyond it spell nothing. -/
def decodeTableWord (nbits w : Nat) : Option Instr :=
  if w % 2 ^ nbits < 2 ^ 32 then (decode (wordOfBits nbits w)).toOption else none

end Sys2Proof
end

