-- ==== Sys2Proof/Config.lean ====
section
/-! DEFINITION. The parameters of rule R7: the fixed ones as constants, the OPEN ones as arguments or as constants
without a body, and the one free value of the model. -/

namespace Sys2Proof.Config

/-- `ADDR7` (R7): the 7-bit bus address of the peripheral. -/
def addr7 : BitVec 7 := 0x77

/-- `ADDR_W` (R7): the address byte with write intent. -/
def addrW : Byte := 0xEE

/-- `ADDR_R` (R7): the address byte with read intent. -/
def addrR : Byte := 0xEF

/-- `BUF_CAP` (R7): the capacity of the scratch buffer in bytes. -/
def bufCap : Nat := 22

/-- `N_CAL` (R7): how many calibration coefficients there are. -/
def nCal : Nat := 11

/-- `CAL_BASE` (R7): the peripheral register that holds the first calibration byte. -/
def calBase : Byte := 0xAA

/-- `CAL_BYTES` (R7): how many calibration bytes there are. -/
def calBytes : Byte := 22

/-- `REG_CTRL` (R7): the peripheral's control register. -/
def regCtrl : Byte := 0xF4

/-- `REG_RESULT` (R7): the peripheral's result register. -/
def regResult : Byte := 0xF6

/-- `CMD_TEMP` (R7): the byte that starts a temperature conversion. -/
def cmdTemp : Byte := 0x2E

/-- `CMD_PRES(oss)` (R7): the byte that starts a pressure conversion. -/
def cmdPres (oss : BitVec 2) : Byte := 0x34 ||| (oss.setWidth 8 <<< 6)

/-- The most entries the micro-op queue can hold, `5 + 2 × BUF_CAP + 1` (R22). -/
def queueCap : Nat := 5 + 2 * bufCap + 1

/-- The OPEN conversion waits `T_WAIT_T` and `T_WAIT_P(oss)` (R7), an argument of whatever needs them.
DESIGN CHOICE (log 15): counted in microseconds. -/
structure Waits where
  temp : Nat
  pres : BitVec 2 → Nat

/-- What R7 and R265 ask of the waits: at least 4.5 ms, at least 25.5 ms at oversampling 3, and non-decreasing. -/
def Waits.meetBudget (w : Waits) : Bool :=
  4500 ≤ w.temp && 25500 ≤ w.pres 3 && w.pres 0 ≤ w.pres 1 && w.pres 1 ≤ w.pres 2 && w.pres 2 ≤ w.pres 3

/-- `HOST_BASE` (R7, R70): where the block's registers sit in the host's address map. OPEN, and no rule depends on it. -/
opaque hostBase : Nat

/-- `DrawWord()` (R10, R62): what the n-th faulting host read returns. A free value: any u32, under no law (log 6). -/
opaque drawWord : Nat → Word

end Sys2Proof.Config
end

