-- ==== Sys2Proof/Machine/State.lean ====
section
/-! DEFINITION. Every piece of state the spec gives the block (10_state.md), the bookkeeping of rules R12 and R44, the
agents of rule R5 as plain data, and the state after reset (R43). -/

namespace Sys2Proof.Machine

/-- `PHASE`, the engine's bus state (R20). Code 7 is never held, so it has no constructor. -/
inductive Phase where
  /-- Bus released. -/
  | idle
  /-- A start or restart completed; the address byte is next. -/
  | addr
  /-- Master transmitter. -/
  | mtx
  /-- Master receiver, ready for a byte. -/
  | mrx
  /-- A byte was received; an ACK or NACK must follow. -/
  | mrxAck
  /-- A NACK was sent; a stop or a restart must follow. -/
  | mrxEnd
  /-- The peripheral did not acknowledge a written byte; busy until reset (R128). -/
  | hung
deriving DecidableEq, Repr

/-- One queued bus phase (R22). -/
inductive MicroOp where
  | uStart
  | uRestart
  | uStop
  | uWrite (b : Byte)
  | uRead
  | uAck
  | uNack
deriving DecidableEq, Repr

/-- The acknowledge bit a peripheral returns for a written byte (R11, R45). -/
inductive AckBit where
  | ack
  | nack
deriving DecidableEq, Repr

/-- The bus-symbol alphabet (R11). -/
inductive Symbol where
  /-- A start condition. -/
  | S
  /-- A repeated start. -/
  | Sr
  /-- A stop condition. -/
  | P
  /-- A byte written, with the acknowledge the peripheral returned. -/
  | W (b : Byte) (a : AckBit)
  /-- A byte received. -/
  | R (b : Byte)
  /-- An acknowledge driven by the block. -/
  | A
  /-- A not-acknowledge driven by the block. -/
  | N
  /-- A transaction abandoned by reset (R260). -/
  | X
deriving DecidableEq, Repr

/-- `ERRCODE` (R27, R230): codes 0 to 10; 11 to 15 are never raised, so they have no constructor. -/
inductive FaultCode where
  | none
  | illegalCommand
  | busyCollision
  | sequence
  | countRange
  | bufferOverflow
  | unwritten
  | configLocked
  | divZero
  | readInvalid
  | badRegister
deriving DecidableEq, Repr

/-- The calibration register file `CAL[0..10]`, eleven 16-bit registers in the order of R29. -/
structure CalSet where
  ac1 : BitVec 16
  ac2 : BitVec 16
  ac3 : BitVec 16
  ac4 : BitVec 16
  ac5 : BitVec 16
  ac6 : BitVec 16
  b1  : BitVec 16
  b2  : BitVec 16
  mb  : BitVec 16
  mc  : BitVec 16
  md  : BitVec 16
deriving DecidableEq, Repr

/-- The result registers `T` (0.1 °C) and `P` (Pa), s32 as two's complement, with their common valid bit (R33). -/
structure Reading where
  t : Word
  p : Word
deriving DecidableEq, Repr

/-- The scratch buffer `BUF[0..21]` with `BUFV[0..21]` (R24): the bytes that hold a value, by rising index. An index that is
not listed has `BUFV = 0` and holds no value (R42, log 5). -/
abbrev Memory := List Host.Cell

/-- What the bus/peripheral agent answers when it completes a micro-op (R45): `DrawAck()` if it was a uWRITE, `DrawByte()`
if it was a uREAD. -/
structure Answer where
  ack  : AckBit
  byte : Byte
deriving DecidableEq, Repr

/-- One action of the host (R99). A command statement is a write of its word to CMD (R98). -/
inductive HostAction where
  /-- `RegWrite(n, v)` (R63). -/
  | write (n : RegNum) (v : Word)
  /-- `RegRead(n)` (R62). -/
  | read (n : RegNum)
  /-- POLL: read STATUS until BUSY = 0 (R99). -/
  | poll
  /-- DELAY t: let t pass, in microseconds (R99). -/
  | delay (t : Nat)
  /-- RESET (R99, R260). -/
  | reset
deriving DecidableEq, Repr

/-- Which agent takes the next step (R5, R72), with the answer of the bus/peripheral agent where it is that one. -/
inductive Turn where
  /-- The host takes a step of its program. -/
  | host
  /-- The bus/peripheral agent takes `Complete()` (R121). -/
  | bus (a : Answer)
  /-- The external reset, for example a watchdog or power-on (R260). -/
  | reset
deriving DecidableEq, Repr

/-- A value the host read through `RegRead` (R12). -/
structure HostRead where
  reg   : RegNum
  value : Word
deriving DecidableEq, Repr

/-- The block, its observation, and the agents that drive it. -/
structure State where
  /-- `PHASE` (R20). -/
  phase   : Phase
  /-- `MQ`, the pending micro-ops, head first (R22). -/
  mq      : List MicroOp
  /-- `NACKED` (R23). -/
  nacked  : Bool
  /-- `BUF` and `BUFV` (R24). -/
  buf     : Memory
  /-- `BUFPTR` (R25). -/
  bufPtr  : BitVec 5
  /-- `ERR` (R26). -/
  err     : Bool
  /-- `ERRCODE` (R27). -/
  errCode : FaultCode
  /-- `ERRINFO` (R28). -/
  errInfo : Word
  /-- `CAL` and `CALV` (R29): none while CALV = 0. -/
  cal     : Option CalSet
  /-- `OSS` (R30). -/
  oss     : BitVec 2
  /-- `OSSSET` (R30). -/
  ossSet  : Bool
  /-- `UT` and `UTV` (R31): none while UTV = 0. -/
  ut      : Option (BitVec 16)
  /-- `UP` and `UPV` (R32): none while UPV = 0. -/
  up      : Option (BitVec 19)
  /-- `T`, `P` and `RESV` (R33): none while RESV = 0. -/
  result  : Option Reading
  /-- `TRACE`, oldest first (R44). -/
  trace   : List Symbol
  /-- The values the host has read, oldest first (R12). -/
  reads   : List HostRead
  /-- The model's own: how many draws `DrawWord()` has given (R10, log 6). -/
  draws   : Nat
  /-- The rest of the host's program (R36: host state, outside the block). -/
  host    : List HostAction
  /-- The model's own: the order in which the agents take their next steps (R72, log 1). -/
  turns   : List Turn
deriving DecidableEq, Repr

/-- Why the machine stops. The faults of 60_exceptions.md are not here: the block records them and goes on (R231). -/
inductive Fault where
  /-- A uREAD completes while BUFPTR is beyond the last scratch byte. Raised by the completion of a uREAD alone. Safe: R25 and
  R129 keep BUFPTR from getting there, so no run reaches it (log 8). -/
  | scratchIndex
deriving DecidableEq, Repr

/-- Why an instruction has no meaning here. -/
inductive Refusal where
  /-- The instruction has no meaning yet. Raised by an arm of `exec` alone; safe. No arm does so. -/
  | notModelled (mnemonic : String)
deriving DecidableEq, Repr

/-- The block right after power-on (R43), with nothing observed yet, no host program and no agent due. -/
def State.reset : State where
  phase   := .idle
  mq      := []
  nacked  := false
  buf     := []
  bufPtr  := 0
  err     := false
  errCode := .none
  errInfo := 0
  cal     := none
  oss     := 0
  ossSet  := false
  ut      := none
  up      := none
  result  := none
  trace   := []
  reads   := []
  draws   := 0
  host    := []
  turns   := []

end Sys2Proof.Machine
end

