-- ==== Sys2Proof/Machine/Scratch.lean ====
section
/-! DEFINITION. The scratch buffer (R24), the only memory a command reads or writes by number (R10): a list of (index, byte)
in one canonical form. What an unlisted index reads as is "no value" (R42). -/

namespace Sys2Proof.Machine

/-- The byte at an index; none where its valid bit is 0 and it holds no value (R24, R42). -/
def Memory.read : Memory → Nat → Option Byte
  | [], _ => none
  | (b, v) :: rest, a => if a = b then some v else Memory.read rest a

/-- Give the byte at an index a value, and so set its valid bit (R24). -/
def Memory.write : Memory → Nat → Byte → Memory
  | [], a, v => [(a, v)]
  | (b, w) :: rest, a, v =>
    if a < b then (a, v) :: (b, w) :: rest
    else if a = b then (a, v) :: rest
    else (b, w) :: Memory.write rest a v

/-- No byte holds a value: every valid bit 0 (R123, R43). -/
def Memory.clear : Memory := []

/-- `BUFV[i]` (R24). -/
def Memory.valid (m : Memory) (i : Nat) : Bool := (m.read i).isSome

/-- The indexes rise strictly and stay below the capacity, so equal buffers are equal lists (R24). -/
def Memory.wf : Memory → Bool
  | [] => true
  | [(a, _)] => a < Config.bufCap
  | (a, _) :: (b, w) :: rest => a < b && Memory.wf ((b, w) :: rest)

end Sys2Proof.Machine
end

