-- ==== Sys2Proof/Machine/Flags.lean ====
section
/-! DEFINITION. The derived flags and the layouts of the host-visible status registers (R21, R37 to R40). -/

namespace Sys2Proof.Machine

/-- `BUSY = (MQ ≠ []) or (PHASE = HUNG)` (R21). -/
def State.busy (s : State) : Bool := !s.mq.isEmpty || s.phase == .hung

/-- `CALV` (R29). -/
def State.calv (s : State) : Bool := s.cal.isSome

/-- `UTV` (R31). -/
def State.utv (s : State) : Bool := s.ut.isSome

/-- `UPV` (R32). -/
def State.upv (s : State) : Bool := s.up.isSome

/-- `RESV` (R33). -/
def State.resv (s : State) : Bool := s.result.isSome

/-- `BUFV[i]` (R24). -/
def State.bufv (s : State) (i : Nat) : Bool := s.buf.valid i

/-- The code of a phase (R20). -/
def Phase.code : Phase → BitVec 3
  | .idle => 0
  | .addr => 1
  | .mtx => 2
  | .mrx => 3
  | .mrxAck => 4
  | .mrxEnd => 5
  | .hung => 6

/-- The number of a fault code (R230). -/
def FaultCode.number : FaultCode → BitVec 4
  | .none => 0
  | .illegalCommand => 1
  | .busyCollision => 2
  | .sequence => 3
  | .countRange => 4
  | .bufferOverflow => 5
  | .unwritten => 6
  | .configLocked => 7
  | .divZero => 8
  | .readInvalid => 9
  | .badRegister => 10

/-- A flag at a bit of a 32-bit word. -/
def flagAt (lo : Nat) (b : Bool) : Word := fieldAt lo (BitVec.ofBool b)

/-- The `STATUS` register (R38); bits 31 to 22 are 0. -/
def State.status (s : State) : Word :=
  flagAt 0 s.busy ||| flagAt 1 s.err ||| flagAt 2 s.nacked ||| flagAt 3 s.calv ||| flagAt 4 s.utv ||| flagAt 5 s.upv
    ||| flagAt 6 s.resv ||| flagAt 7 s.ossSet ||| fieldAt 8 s.phase.code ||| fieldAt 11 s.bufPtr
    ||| fieldAt 16 s.errCode.number ||| fieldAt 20 s.oss

/-- The `BUFVALID` register: bit i is `BUFV[i]` for i below 22, the rest 0 (R40). -/
def State.bufValid (s : State) : Word :=
  (List.range Config.bufCap).foldl (fun acc i => acc ||| flagAt i (s.bufv i)) 0

/-- `ERRINFO` after a register-access fault: the register number, and bit 8 for a write (R39). -/
def regFaultInfo (write : Bool) (n : RegNum) : Word := flagAt 8 write ||| fieldAt 0 n

end Sys2Proof.Machine
end

