-- ==== Sys2Proof/Machine/Operands.lean ====
section
/-! DEFINITION. What the datapath commands take in: the big-endian assemblies from the scratch buffer (R64, R65) and the
widening of COMP's inputs (R195). An assembly is none where a byte it needs has no value (R24, R42). -/

namespace Sys2Proof.Machine

/-- The big-endian pair `(BUF[i], BUF[i+1])` (R64). -/
def Memory.pair (m : Memory) (i : Nat) : Option (BitVec 16) := do
  let hi ← m.read i
  let lo ← m.read (i + 1)
  return hi ++ lo

/-- The big-endian triple `(BUF[0], BUF[1], BUF[2])` (R64, R65). -/
def Memory.triple (m : Memory) : Option (BitVec 24) := do
  let hi ← m.read 0
  let mid ← m.read 1
  let lo ← m.read 2
  return hi ++ mid ++ lo

/-- The eleven coefficients from the 22 bytes, pair k being coefficient k (R172, R29). -/
def Memory.calSet (m : Memory) : Option CalSet := do
  let ac1 ← m.pair 0
  let ac2 ← m.pair 2
  let ac3 ← m.pair 4
  let ac4 ← m.pair 6
  let ac5 ← m.pair 8
  let ac6 ← m.pair 10
  let b1 ← m.pair 12
  let b2 ← m.pair 14
  let mb ← m.pair 16
  let mc ← m.pair 18
  let md ← m.pair 20
  return { ac1, ac2, ac3, ac4, ac5, ac6, b1, b2, mb, mc, md }

/-- `UP = raw >> (8 − OSS)` (R174), a logical shift whose result fits 16 + OSS bits and so the 19 of R32. -/
def rawPressure (oss : BitVec 2) (raw : BitVec 24) : BitVec 19 := (raw >>> (8 - oss.toNat)).setWidth 19

/-- `CAL[k]` for k in 0 to 10 (R29). -/
def CalSet.reg (c : CalSet) : Nat → Option (BitVec 16)
  | 0  => some c.ac1
  | 1  => some c.ac2
  | 2  => some c.ac3
  | 3  => some c.ac4
  | 4  => some c.ac5
  | 5  => some c.ac6
  | 6  => some c.b1
  | 7  => some c.b2
  | 8  => some c.mb
  | 9  => some c.mc
  | 10 => some c.md
  | _  => none

/-- The unsigned coefficients are AC4, AC5 and AC6; the other eight are signed (R29, R41). -/
def calUnsigned (k : Nat) : Bool := k == 3 || k == 4 || k == 5

/-- A coefficient widened to 32 bits by its signedness (R41, R195). -/
def widenCal (k : Nat) (v : BitVec 16) : Word := if calUnsigned k then v.setWidth 32 else v.signExtend 32

/-- COMP's inputs, widened to exact integers (R195). -/
structure CompInput where
  ac1 : Int
  ac2 : Int
  ac3 : Int
  ac4 : Int
  ac5 : Int
  ac6 : Int
  b1  : Int
  b2  : Int
  mc  : Int
  md  : Int
  ut  : Int
  up  : Int
  oss : Nat
deriving DecidableEq, Repr

/-- Widening (R195): AC4, AC5, AC6, UT and UP are unsigned, the rest signed. MB is not an input of any step (R217). -/
def compInput (c : CalSet) (ut : BitVec 16) (up : BitVec 19) (oss : BitVec 2) : CompInput where
  ac1 := c.ac1.toInt
  ac2 := c.ac2.toInt
  ac3 := c.ac3.toInt
  ac4 := c.ac4.toNat
  ac5 := c.ac5.toNat
  ac6 := c.ac6.toNat
  b1  := c.b1.toInt
  b2  := c.b2.toInt
  mc  := c.mc.toInt
  md  := c.md.toInt
  ut  := ut.toNat
  up  := up.toNat
  oss := oss.toNat

end Sys2Proof.Machine
end

