-- ==== Sys2Proof/Machine/Ops.lean ====
section
/-! DEFINITION. The shared operations: emitting a symbol, fault entry, reset, and the issue procedure every command passes
through. -/

namespace Sys2Proof.Machine

/-- `Emit(sym)` (R10, R44). -/
def State.emit (s : State) (y : Symbol) : State := { s with trace := s.trace ++ [y] }

/-- Fault entry, `raise Fault(code, info)` (R231): recorded only for the first fault since reset; nothing else changes, and
control goes nowhere. -/
def State.raise (s : State) (c : FaultCode) (info : Word) : State :=
  if s.err then s else { s with err := true, errCode := c, errInfo := info }

/-- Reset, the only way out of a fault or of HUNG (R236, R260). The block's state takes the values of R43 and TRACE keeps its
symbols, with X for a transaction cut short; what the host read, the draws taken and the agents' own states are not the
block's (log 14). -/
def State.resetBlock (s : State) : State :=
  { State.reset with
    trace := if s.phase = .idle then s.trace else s.trace ++ [.X]
    reads := s.reads
    draws := s.draws
    host  := s.host
    turns := s.turns }

/-- The phases in which a command may be issued (R122). The datapath commands are legal in every phase that can be held
while BUSY = 0 (R170). -/
def legalPhases : Instr → List Phase
  | .start     => [.idle]
  | .restart   => [.mtx, .mrxEnd]
  | .stop      => [.mtx, .mrxEnd]
  | .write _   => [.addr, .mtx]
  | .read      => [.mrx]
  | .ack       => [.mrxAck]
  | .nack      => [.mrxAck]
  | .wrreg _ _ => [.idle]
  | .rdblk _ _ => [.idle]
  | .setoss _  => [.idle, .addr, .mtx, .mrx, .mrxAck, .mrxEnd]
  | .loadcal   => [.idle, .addr, .mtx, .mrx, .mrxAck, .mrxEnd]
  | .loadut    => [.idle, .addr, .mtx, .mrx, .mrxAck, .mrxEnd]
  | .loadup    => [.idle, .addr, .mtx, .mrx, .mrxAck, .mrxEnd]
  | .comp      => [.idle, .addr, .mtx, .mrx, .mrxAck, .mrxEnd]

/-- The first two lines of `Issue(w)` (R120): a word is ignored after a fault (R234) and refused while busy (R230). -/
def issueGuard (w : Word) (s : State) (body : State) : Host.Outcome State Fault Refusal :=
  if s.err then .next s
  else if s.busy then .next (s.raise .busyCollision w)
  else .next body

/-- `Issue(w)` of a word that spells no command (R120, R95). -/
def issueIllegal (w : Word) (s : State) : Host.Outcome State Fault Refusal :=
  issueGuard w s (s.raise .illegalCommand w)

/-- `Issue` of a bus command (R120): the phase check, the command's own check, then `MQ <- Expand(c)`. -/
def issueBus (i : Instr) (check : Option FaultCode) (ops : List MicroOp) (s : State) :
    Host.Outcome State Fault Refusal :=
  issueGuard (encode i) s <|
    if s.phase ∈ legalPhases i then
      match check with
      | some c => s.raise c (encode i)
      | none   => { s with mq := ops }
    else s.raise .sequence (encode i)

/-- `Issue` of a datapath command (R120, R170): its own checks and its effect within this step. -/
def issueData (i : Instr) (effect : Except FaultCode State) (s : State) : Host.Outcome State Fault Refusal :=
  issueGuard (encode i) s <|
    match effect with
    | .ok t    => t
    | .error c => s.raise c (encode i)

end Sys2Proof.Machine
end

