-- ==== Sys2Proof/Machine/Complete.lean ====
section
/-! DEFINITION. `Complete()`, the step of the bus/peripheral agent, with the completion effect of each micro-op (R121, R123
to R131). -/

namespace Sys2Proof.Machine

/-- The completion of uSTART (R123): every scratch byte loses its value. -/
def completeStart (s : State) : State := { s.emit .S with phase := .addr, bufPtr := 0, buf := Memory.clear }

/-- The completion of uRESTART (R124). -/
def completeRestart (s : State) : State := { s.emit .Sr with phase := .addr }

/-- The completion of uSTOP (R125). -/
def completeStop (s : State) : State := { s.emit .P with phase := .idle }

/-- The phase after an acknowledged byte: bit 0 of an address byte selects the direction (R126, R127). -/
def phaseAfterWrite (ph : Phase) (b : Byte) : Phase :=
  if ph = .addr then (if b.getLsbD 0 then .mrx else .mtx) else .mtx

/-- The completion of uWRITE(b) (R126): a NACK hangs the engine (R128). -/
def completeWrite (b : Byte) (a : AckBit) (s : State) : State :=
  match a with
  | .nack => { s.emit (.W b .nack) with nacked := true, phase := .hung, mq := [] }
  | .ack  => { s.emit (.W b .ack) with phase := phaseAfterWrite s.phase b }

/-- The completion of uREAD (R129). -/
def completeRead (v : Byte) (s : State) : Host.Outcome State Fault Refusal :=
  if s.bufPtr.toNat < Config.bufCap then
    .next { s.emit (.R v) with
      buf := s.buf.write s.bufPtr.toNat v, bufPtr := s.bufPtr + 1, phase := .mrxAck }
  else .fault .scratchIndex

/-- The completion of uACK (R130). -/
def completeAck (s : State) : State := { s.emit .A with phase := .mrx }

/-- The completion of uNACK (R131). -/
def completeNack (s : State) : State := { s.emit .N with phase := .mrxEnd }

/-- The completion effect of a micro-op, with the agent's answer (R45). -/
def completeOp (u : MicroOp) (a : Answer) (s : State) : Host.Outcome State Fault Refusal :=
  match u with
  | .uStart   => .next (completeStart s)
  | .uRestart => .next (completeRestart s)
  | .uStop    => .next (completeStop s)
  | .uWrite b => .next (completeWrite b a.ack s)
  | .uRead    => completeRead a.byte s
  | .uAck     => .next (completeAck s)
  | .uNack    => .next (completeNack s)

/-- `Complete()` (R121): the head of MQ leaves the queue and takes effect. It is enabled only when MQ ≠ []; a turn of the
agent at an empty queue has no step to take (log 4). -/
def complete (a : Answer) (s : State) : Host.Outcome State Fault Refusal :=
  match s.mq with
  | []      => .next s
  | u :: us => completeOp u a { s with mq := us }

end Sys2Proof.Machine
end

