-- ==== Sys2Proof/Machine/Arith.lean ====
section
/-! DEFINITION. The arithmetic primitives of rule R9: exact functions on integers, then a named reduction. -/

namespace Sys2Proof.Machine

/-- `wrap_s32(v) = ((v + 2^31) mod 2^32) − 2^31` (R9). -/
def wrapS32 (v : Int) : Int := (v + 2 ^ 31) % 2 ^ 32 - 2 ^ 31

/-- `wrap_u32(v) = v mod 2^32` (R9). -/
def wrapU32 (v : Int) : Int := v % 2 ^ 32

/-- `asr(v, n) = floor(v / 2^n)` (R9, R192); on an unsigned value, its logical right shift (R8). -/
def asr (v : Int) (n : Nat) : Int := Int.fdiv v (2 ^ n)

/-- `tdiv(a, b)`: the quotient rounded toward zero, for b ≠ 0 (R9, R193). -/
def tdiv (a b : Int) : Int := Int.tdiv a b

/-- `udiv(a, b) = floor(a / b)` for unsigned a and b, b ≠ 0 (R9, R193). -/
def udiv (a b : Int) : Int := Int.fdiv a b

/-- `shl_s32(v, n) = wrap_s32(v × 2^n)` (R9). -/
def shlS32 (v : Int) (n : Nat) : Int := wrapS32 (v * 2 ^ n)

/-- An s32 or u32 value as the 32-bit register that holds it (R33, R41). -/
def toWord (v : Int) : Word := BitVec.ofInt 32 v

end Sys2Proof.Machine
end

