-- ==== Sys2Proof/Machine/Compensate.lean ====
section
/-! DEFINITION. COMP: the fixed-point compensation, step by step (R190 to R215). Every value is an integer in the range of
its 32-bit intermediate, and every operation is followed by the reduction its rule names (R191). -/

namespace Sys2Proof.Machine

/-- Step T1 (R196). -/
def stepT1 (c : CompInput) : Int := asr (wrapS32 ((c.ut - c.ac6) * c.ac5)) 15

/-- Step T2's divisor (R197). -/
def stepT2Divisor (c : CompInput) : Int := wrapS32 (stepT1 c + c.md)

/-- Step T2, for a divisor that is not 0 (R197). -/
def stepT2 (c : CompInput) : Int := tdiv (wrapS32 (c.mc * 2048)) (stepT2Divisor c)

/-- Step T3: B5 (R198). -/
def stepT3 (c : CompInput) : Int := wrapS32 (stepT1 c + stepT2 c)

/-- Step T4: the temperature in 0.1 °C (R199). -/
def stepT4 (b5 : Int) : Int := asr (wrapS32 (b5 + 8)) 4

/-- Step P1: B6 (R200). -/
def stepP1 (b5 : Int) : Int := wrapS32 (b5 - 4000)

/-- Step P2's Q (R201). -/
def stepQ (b6 : Int) : Int := asr (wrapS32 (b6 * b6)) 12

/-- Steps P2 to P4: X3 of the first half (R201 to R203). -/
def stepP4 (c : CompInput) (b6 : Int) : Int :=
  let x1 := asr (wrapS32 (c.b2 * stepQ b6)) 11
  let x2 := asr (wrapS32 (c.ac2 * b6)) 11
  wrapS32 (x1 + x2)

/-- Step P5: B3 (R204). -/
def stepP5 (c : CompInput) (b6 : Int) : Int :=
  asr (wrapS32 (shlS32 (wrapS32 (c.ac1 * 4 + stepP4 c b6)) c.oss + 2)) 2

/-- Steps P6 to P8: X3 of the second half (R205 to R207). -/
def stepP8 (c : CompInput) (b6 : Int) : Int :=
  let x1 := asr (wrapS32 (c.ac3 * b6)) 13
  let x2 := asr (wrapS32 (c.b1 * stepQ b6)) 16
  asr (wrapS32 (wrapS32 (x1 + x2) + 2)) 2

/-- Step P9: B4, unsigned (R208). -/
def stepP9 (c : CompInput) (b6 : Int) : Int :=
  asr (wrapU32 (c.ac4 * wrapU32 (wrapS32 (stepP8 c b6 + 32768)))) 15

/-- The factor `50000 >> OSS` (R209). -/
def pressureFactor (oss : Nat) : Int := asr 50000 oss

/-- Step P10: B7, unsigned (R209). -/
def stepP10 (c : CompInput) (b3 : Int) : Int := wrapU32 (wrapU32 (c.up - b3) * pressureFactor c.oss)

/-- Step P11's quotient q, for B4 ≠ 0: the B7 branch (R210). -/
def quotientB7 (b7 b4 : Int) : Int :=
  if b7 < 0x80000000 then udiv (wrapU32 (b7 * 2)) b4 else wrapU32 (udiv b7 b4 * 2)

/-- Step P11: p (R210). -/
def stepP11 (b7 b4 : Int) : Int := wrapS32 (quotientB7 b7 b4)

/-- Steps P12 to P15: the quadratic correction (R211 to R214). -/
def stepP15 (p : Int) : Int :=
  let x1 := wrapS32 (asr p 8 * asr p 8)
  let x1 := asr (wrapS32 (x1 * 3038)) 16
  let x2 := asr (wrapS32 (-7357 * p)) 16
  wrapS32 (p + asr (wrapS32 (wrapS32 (x1 + x2) + 3791)) 4)

/-- `CompT()`: the temperature and B5; none for a divisor of 0 (R194, R196 to R199). -/
def compT (c : CompInput) : Option (Int × Int) :=
  if stepT2Divisor c = 0 then none else some (stepT4 (stepT3 c), stepT3 c)

/-- `CompP(b5)`: the pressure; none for a divisor of 0 (R194, R200 to R214). -/
def compP (c : CompInput) (b5 : Int) : Option Int :=
  let b6 := stepP1 b5
  let b3 := stepP5 c b6
  let b4 := stepP9 c b6
  let b7 := stepP10 c b3
  if b4 = 0 then none else some (stepP15 (stepP11 b7 b4))

/-- The compensation as a whole; none where a divisor is 0 (R190). -/
def compensate (c : CompInput) : Option Reading := do
  let (t, b5) ← compT c
  let p ← compP c b5
  return { t := toWord t, p := toWord p }

/-- COMP: T, P and RESV all at once, or nothing (R190, R215). -/
def execComp (s : State) : Host.Outcome State Fault Refusal :=
  issueData .comp
    (match s.cal, s.ut, s.up with
      | some c, some ut, some up =>
        match compensate (compInput c ut up s.oss) with
        | none   => .error .divZero
        | some r => .ok { s with result := some r }
      | _, _, _ => .error .unwritten) s

end Sys2Proof.Machine
end

