-- ==== Sys2Proof/Machine/Framing.lean ====
section
/-! DEFINITION. The issue of the seven framing primitives (R123 to R131). Their completion is Machine/Complete.lean. -/

namespace Sys2Proof.Machine

/-- START (R123). -/
def execStart (s : State) : Host.Outcome State Fault Refusal := issueBus .start none [.uStart] s

/-- RESTART (R124). -/
def execRestart (s : State) : Host.Outcome State Fault Refusal := issueBus .restart none [.uRestart] s

/-- STOP (R125). -/
def execStop (s : State) : Host.Outcome State Fault Refusal := issueBus .stop none [.uStop] s

/-- WRITE b (R126). -/
def execWrite (b : Byte) (s : State) : Host.Outcome State Fault Refusal := issueBus (.write b) none [.uWrite b] s

/-- READ, refused when the scratch buffer is full (R129). -/
def execRead (s : State) : Host.Outcome State Fault Refusal :=
  issueBus .read (if s.bufPtr = 22 then some .bufferOverflow else none) [.uRead] s

/-- ACK (R130). -/
def execAck (s : State) : Host.Outcome State Fault Refusal := issueBus .ack none [.uAck] s

/-- NACK (R131). -/
def execNack (s : State) : Host.Outcome State Fault Refusal := issueBus .nack none [.uNack] s

end Sys2Proof.Machine
end

