-- ==== Sys2Proof/Machine/SampleLoad.lean ====
section
/-! DEFINITION. The oversampling setting and the sample loads (R171 to R174). -/

namespace Sys2Proof.Machine

/-- SETOSS oss: once per reset, and never under a loaded UP (R171). -/
def execSetoss (oss : BitVec 2) (s : State) : Host.Outcome State Fault Refusal :=
  issueData (.setoss oss)
    (if s.ossSet || s.upv then .error .configLocked else .ok { s with oss := oss, ossSet := true }) s

/-- LOADCAL: once per reset, from all 22 bytes (R172). -/
def execLoadcal (s : State) : Host.Outcome State Fault Refusal :=
  issueData .loadcal
    (if s.calv then .error .configLocked
     else match s.buf.calSet with
      | none   => .error .unwritten
      | some c => .ok { s with cal := some c }) s

/-- LOADUT: the big-endian pair of the first two bytes (R173). -/
def execLoadut (s : State) : Host.Outcome State Fault Refusal :=
  issueData .loadut
    (match s.buf.pair 0 with
      | none   => .error .unwritten
      | some v => .ok { s with ut := some v }) s

/-- LOADUP: the first three bytes, shifted to the resolution OSS sets (R174). -/
def execLoadup (s : State) : Host.Outcome State Fault Refusal :=
  issueData .loadup
    (match s.buf.triple with
      | none     => .error .unwritten
      | some raw => .ok { s with up := some (rawPressure s.oss raw) }) s

end Sys2Proof.Machine
end

