-- ==== Sys2Proof/Machine/Transactions.lean ====
section
/-! DEFINITION. The issue of the composite transactions (R150, R151). -/

namespace Sys2Proof.Machine

/-- The micro-ops of WRREG (R150). -/
def wrregOps (reg val : Byte) : List MicroOp :=
  [.uStart, .uWrite Config.addrW, .uWrite reg, .uWrite val, .uStop]

/-- `[uREAD, uACK]` for each byte but the last and `[uREAD, uNACK]` for the last (R151); nothing for no byte. -/
def receiveOps : Nat → List MicroOp
  | 0 => []
  | 1 => [.uRead, .uNack]
  | n + 2 => .uRead :: .uAck :: receiveOps (n + 1)

/-- The micro-ops of RDBLK (R151). -/
def rdblkOps (reg : Byte) (count : Nat) : List MicroOp :=
  [.uStart, .uWrite Config.addrW, .uWrite reg, .uRestart, .uWrite Config.addrR] ++ receiveOps count ++ [.uStop]

/-- WRREG reg, val (R150). -/
def execWrreg (reg val : Byte) (s : State) : Host.Outcome State Fault Refusal :=
  issueBus (.wrreg reg val) none (wrregOps reg val) s

/-- RDBLK reg, count, refused for a count of 0 or beyond the capacity (R151). -/
def execRdblk (reg count : Byte) (s : State) : Host.Outcome State Fault Refusal :=
  issueBus (.rdblk reg count)
    (if count.toNat = 0 ∨ Config.bufCap < count.toNat then some .countRange else none)
    (rdblkOps reg count.toNat) s

end Sys2Proof.Machine
end

