-- ==== Sys2Proof/Machine/Dispatch.lean ====
section
/-! DEFINITION. One arm per command: `Issue` of its word (R120). -/

namespace Sys2Proof.Machine

def exec (i : Instr) (s : State) : Host.Outcome State Fault Refusal :=
  match i with
  | .start => Sys2Proof.Machine.execStart s
  | .restart => Sys2Proof.Machine.execRestart s
  | .stop => Sys2Proof.Machine.execStop s
  | .write b => Sys2Proof.Machine.execWrite b s
  | .read => Sys2Proof.Machine.execRead s
  | .ack => Sys2Proof.Machine.execAck s
  | .nack => Sys2Proof.Machine.execNack s
  | .wrreg reg val => Sys2Proof.Machine.execWrreg reg val s
  | .rdblk reg count => Sys2Proof.Machine.execRdblk reg count s
  | .setoss oss => Sys2Proof.Machine.execSetoss oss s
  | .loadcal => Sys2Proof.Machine.execLoadcal s
  | .loadut => Sys2Proof.Machine.execLoadut s
  | .loadup => Sys2Proof.Machine.execLoadup s
  | .comp => Sys2Proof.Machine.execComp s

end Sys2Proof.Machine
end

