-- ==== Sys2Proof/Machine/HostPort.lean ====
section
/-! DEFINITION. The host's register space: the map of rule R61 and `RegRead` (R62). `RegWrite` issues commands and stands in
Machine/Turn.lean. -/

namespace Sys2Proof.Machine

/-- Register CMD (R61). -/
def regCmd : RegNum := 0x00

/-- Register STATUS (R61). -/
def regStatus : RegNum := 0x01

/-- What a register read finds: a value, a data register whose valid bit is 0, or no readable register (R61, R62). -/
inductive RegView where
  | value (v : Word)
  | invalid
  | unassigned
deriving DecidableEq, Repr

/-- A data register: its value if it holds one (R41). -/
def RegView.ofData : Option Word → RegView
  | some v => .value v
  | none   => .invalid

/-- The host register map's readable content (R61, R38 to R41). -/
def State.regView (s : State) (n : RegNum) : RegView :=
  let k := n.toNat
  if k = 0x01 then .value s.status
  else if k = 0x02 then .value s.errInfo
  else if k = 0x03 then .value s.bufValid
  else if k = 0x04 then .ofData (s.ut.map (·.setWidth 32))
  else if k = 0x05 then .ofData (s.up.map (·.setWidth 32))
  else if k = 0x06 then .ofData (s.result.map (·.t))
  else if k = 0x07 then .ofData (s.result.map (·.p))
  else if 0x08 ≤ k ∧ k ≤ 0x12 then
    .ofData ((s.cal.bind (·.reg (k - 0x08))).map (widenCal (k - 0x08)))
  else if 0x20 ≤ k ∧ k ≤ 0x35 then .ofData ((s.buf.read (k - 0x20)).map (·.setWidth 32))
  else .unassigned

/-- The host receives a value (R12, R62). -/
def State.receive (s : State) (n : RegNum) (v : Word) : State := { s with reads := s.reads ++ [⟨n, v⟩] }

/-- A faulting read: the fault entry, and a draw for the value (R62, R231). -/
def State.faultingRead (s : State) (c : FaultCode) (n : RegNum) : State :=
  { (s.raise c (regFaultInfo false n)).receive n (Config.drawWord s.draws) with draws := s.draws + 1 }

/-- `RegRead(n)` (R62). -/
def State.regRead (s : State) (n : RegNum) : State :=
  match s.regView n with
  | .value v    => s.receive n v
  | .invalid    => s.faultingRead .readInvalid n
  | .unassigned => s.faultingRead .badRegister n

end Sys2Proof.Machine
end

