-- ==== Sys2Proof/Machine/Turn.lean ====
section
/-! DEFINITION. What each agent does with its turn: the host's actions (R99), the bus/peripheral agent's completion (R121)
and the external reset (R260). -/

namespace Sys2Proof.Machine

/-- `Issue(w)` (R120): the command the word spells, or the fault of a word that spells none. -/
def issue (w : Word) (s : State) : Host.Outcome State Fault Refusal :=
  match decode w with
  | .ok i    => exec i s
  | .error _ => issueIllegal w s

/-- `RegWrite(n, v)` (R63): CMD is the only writable register. -/
def regWrite (n : RegNum) (v : Word) (s : State) : Host.Outcome State Fault Refusal :=
  if n = regCmd then issue v s else .next (s.raise .badRegister (regFaultInfo true n))

/-- One step of the host's program (R99). A POLL reads STATUS once per turn and stays until it reads BUSY = 0; a host
whose program is over does nothing. -/
def hostTurn (s : State) : Host.Outcome State Fault Refusal :=
  match s.host with
  | []              => .next s
  | .write n v :: p => regWrite n v { s with host := p }
  | .read n :: p    => .next (State.regRead { s with host := p } n)
  | .poll :: p      => .next (if s.busy then s.regRead regStatus else State.regRead { s with host := p } regStatus)
  | .delay _ :: p   => .next { s with host := p }
  | .reset :: p     => .next (State.resetBlock { s with host := p })

/-- The step of the agent whose turn it is (R5, R72). -/
def takeTurn (t : Turn) (s : State) : Host.Outcome State Fault Refusal :=
  match t with
  | .host  => hostTurn s
  | .bus a => complete a s
  | .reset => .next s.resetBlock

/-- The host's next action writes a command word to CMD, and the next turn is the host's. -/
def State.withCommand (s : State) (w : Word) : State :=
  { s with host := .write regCmd w :: s.host, turns := .host :: s.turns }

end Sys2Proof.Machine
end

