-- ==== Sys2Proof/Machine/Step.lean ====
section
/-! DEFINITION. One step of the machine: the agent whose turn it is takes its step (R72). -/

namespace Sys2Proof.Machine

/-- The next turn is taken. With no turn left no agent is due, and the block waits as it is (R260, log 2). -/
def step (s : State) : Host.Outcome State Fault Refusal :=
  match s.turns with
  | []      => .next s
  | t :: ts => takeTurn t { s with turns := ts }

/-- The state whose next step issues the command word with these bits: the block fetches nothing (R36), so the word is
placed where the host takes its next action from, and the host's turn comes next. -/
def State.withFetchWord (s : State) (nbits w : Nat) : State := s.withCommand (wordOfBits nbits w)

end Sys2Proof.Machine
end

