-- ==== Sys2Proof/Machine/Assembler.lean ====
section
/-! DEFINITION. The host's programs: the statements of rules R98, R99 and R101, the host actions each stands for, and the
assembler syntax of rule R98. -/

namespace Sys2Proof.Machine

/-- One statement of a host program: a command (R98), a host action (R99) or a pseudo-instruction (R101). -/
inductive Stmt where
  | cmd (i : Instr)
  | poll
  | delay (t : Nat)
  | rd (n : RegNum)
  | reset
  /-- ADDRW: the address byte with write intent. -/
  | addrw
  /-- ADDRR: the address byte with read intent. -/
  | addrr
  /-- LDCAL: LoadCalibration. -/
  | ldcal
  /-- ACQT: AcquireTemperature. -/
  | acqt
  /-- ACQP o: AcquirePressure. -/
  | acqp (o : BitVec 2)
  /-- CYCLE o: one sampling cycle. -/
  | cycle (o : BitVec 2)
deriving DecidableEq, Repr

/-- A command statement means `RegWrite(CMD, word)` (R98). -/
def issueAction (i : Instr) : HostAction := .write regCmd (encode i)

/-- LDCAL (R101). -/
def ldcalActions : List HostAction :=
  [issueAction (.rdblk Config.calBase Config.calBytes), .poll, issueAction .loadcal]

/-- ACQT (R101). -/
def acqtActions (w : Config.Waits) : List HostAction :=
  [issueAction (.wrreg Config.regCtrl Config.cmdTemp), .poll, .delay w.temp,
   issueAction (.rdblk Config.regResult 2), .poll, issueAction .loadut]

/-- ACQP o (R101): the command byte carries o; the block does not compare it with OSS. -/
def acqpActions (w : Config.Waits) (o : BitVec 2) : List HostAction :=
  [issueAction (.wrreg Config.regCtrl (Config.cmdPres o)), .poll, .delay (w.pres o),
   issueAction (.rdblk Config.regResult 3), .poll, issueAction .loadup]

/-- The host actions of a statement (R98, R99, R101). -/
def Stmt.actions (w : Config.Waits) : Stmt → List HostAction
  | .cmd i   => [issueAction i]
  | .poll    => [.poll]
  | .delay t => [.delay t]
  | .rd n    => [.read n]
  | .reset   => [.reset]
  | .addrw   => [issueAction (.write Config.addrW)]
  | .addrr   => [issueAction (.write Config.addrR)]
  | .ldcal   => ldcalActions
  | .acqt    => acqtActions w
  | .acqp o  => acqpActions w o
  | .cycle o => acqtActions w ++ acqpActions w o ++ [issueAction .comp]

/-- The host actions of a program. -/
def programActions (w : Config.Waits) (p : List Stmt) : List HostAction := (p.map (Stmt.actions w)).flatten

/-- A state with a host program and an order of turns: how a program comes to run (log 2). -/
def State.load (s : State) (p : List HostAction) (ts : List Turn) : State := { s with host := p, turns := ts }

/-- A token of a line: a word, or one punctuation mark. -/
abbrev Token := List Char

/-- Put a finished word before the tokens that follow it. -/
def endWord (word : Token) (rest : List Token) : List Token := if word.isEmpty then rest else word.reverse :: rest

/-- The tokens of a line; text from `;` on is a comment (R98). The first argument is the word read so far, reversed. -/
def tokensFrom : Token → List Char → List Token
  | word, [] => endWord word []
  | word, c :: cs =>
    if c = ';' then endWord word []
    else if c = ' ' || c = '\t' then endWord word (tokensFrom [] cs)
    else if c = ',' || c = ':' || c = '(' || c = ')' then endWord word ([c] :: tokensFrom [] cs)
    else tokensFrom (c :: word) cs

/-- The value of a hexadecimal digit. -/
def hexDigit (c : Char) : Option Nat :=
  if '0'.toNat ≤ c.toNat ∧ c.toNat ≤ '9'.toNat then some (c.toNat - '0'.toNat)
  else if 'A'.toNat ≤ c.toNat ∧ c.toNat ≤ 'F'.toNat then some (c.toNat - 'A'.toNat + 10)
  else if 'a'.toNat ≤ c.toNat ∧ c.toNat ≤ 'f'.toNat then some (c.toNat - 'a'.toNat + 10)
  else none

/-- The digits of a number in a base, most significant first, continuing a value. -/
def digitsFrom (base : Nat) : Nat → List Char → Option Nat
  | n, [] => some n
  | n, c :: cs =>
    match hexDigit c with
    | some d => if d < base then digitsFrom base (n * base + d) cs else none
    | none   => none

/-- A number: decimal, or hexadecimal with the prefix 0x (R98). -/
def numberOf : Token → Option Nat
  | [] => none
  | ['0', 'x'] => none
  | '0' :: 'x' :: cs => digitsFrom 16 0 cs
  | cs => digitsFrom 10 0 cs

/-- The register a name stands for (R61, R99). DESIGN CHOICE (log 18): the index after CAL and BUF is any decimal number in
range, leading zeros included, so CAL01 is CAL1 and BUF005 is BUF5. -/
def registerOf (t : Token) : Option RegNum :=
  if t = "CMD".toList then some 0x00
  else if t = "STATUS".toList then some 0x01
  else if t = "ERRINFO".toList then some 0x02
  else if t = "BUFVALID".toList then some 0x03
  else if t = "UT".toList then some 0x04
  else if t = "UP".toList then some 0x05
  else if t = "T".toList then some 0x06
  else if t = "P".toList then some 0x07
  else match t with
    | 'C' :: 'A' :: 'L' :: ds => do
        let k ← digitsFrom 10 0 (← if ds = [] then none else some ds)
        if k < Config.nCal then some (BitVec.ofNat 6 (0x08 + k)) else none
    | 'B' :: 'U' :: 'F' :: ds => do
        let i ← digitsFrom 10 0 (← if ds = [] then none else some ds)
        if i < Config.bufCap then some (BitVec.ofNat 6 (0x20 + i)) else none
    | _ => none

/-- A statement without operands (R92, R99, R101). -/
def plainStmt (m : Token) : Option Stmt :=
  if m = "START".toList then some (.cmd .start)
  else if m = "RESTART".toList then some (.cmd .restart)
  else if m = "STOP".toList then some (.cmd .stop)
  else if m = "READ".toList then some (.cmd .read)
  else if m = "ACK".toList then some (.cmd .ack)
  else if m = "NACK".toList then some (.cmd .nack)
  else if m = "LOADCAL".toList then some (.cmd .loadcal)
  else if m = "LOADUT".toList then some (.cmd .loadut)
  else if m = "LOADUP".toList then some (.cmd .loadup)
  else if m = "COMP".toList then some (.cmd .comp)
  else if m = "POLL".toList then some .poll
  else if m = "RESET".toList then some .reset
  else if m = "ADDRW".toList then some .addrw
  else if m = "ADDRR".toList then some .addrr
  else if m = "LDCAL".toList then some .ldcal
  else if m = "ACQT".toList then some .acqt
  else none

/-- The time of a DELAY: a number, T_WAIT_T, or T_WAIT_P(o) (R7, R99). -/
def delayOf (w : Config.Waits) : List Token → Option Stmt
  | [t] => if t = "T_WAIT_T".toList then some (.delay w.temp) else (numberOf t).map .delay
  | [t, ['('], o, [')']] => do
      if t = "T_WAIT_P".toList then return .delay (w.pres (← fitsOss (← numberOf o))) else none
  | _ => none

/-- A statement with its operands, separated by commas (R98, R99, R101); none is an assembly error. DESIGN CHOICE (log 18): the
target after the arrow of RD is any one token, a number or a punctuation mark too, and is dropped. -/
def stmtOf (w : Config.Waits) (m : Token) (ops : List Token) : Option Stmt :=
  if m = "DELAY".toList then delayOf w ops
  else match ops with
    | [] => plainStmt m
    | [a] => do
        let n ← numberOf a
        if m = "WRITE".toList then (writeOf n).map .cmd
        else if m = "SETOSS".toList then (setossOf n).map .cmd
        else if m = "ACQP".toList then (fitsOss n).map .acqp
        else if m = "CYCLE".toList then (fitsOss n).map .cycle
        else none
    | [a, [','], b] => do
        let x ← numberOf a
        let y ← numberOf b
        if m = "WRREG".toList then (wrregOf x y).map .cmd
        else if m = "RDBLK".toList then (rdblkOf x y).map .cmd
        else none
    | [name, ['-', '>'], _] => if m = "RD".toList then (registerOf name).map .rd else none
    | _ => none

/-- The statements of a line's tokens: none or one, after any label (R98). DESIGN CHOICE (log 18): a label's name is any one
token before the colon, a number or a punctuation mark too, and several lines may carry the same label. -/
def lineOf (w : Config.Waits) : List Token → Option (List Stmt)
  | [] => some []
  | [_, [':']] => some []
  | _ :: [':'] :: m :: ops => (stmtOf w m ops).map ([·])
  | m :: ops => (stmtOf w m ops).map ([·])

/-- The statements of a program's lines, or none if a line is an assembly error (R98). -/
def assemble (w : Config.Waits) : List (List Char) → Option (List Stmt)
  | [] => some []
  | l :: ls => do return (← lineOf w (tokensFrom [] l)) ++ (← assemble w ls)

end Sys2Proof.Machine
end

