-- ==== Sys2Proof/Safety.lean ====
section
/-! DEFINITION. The terms claims are stated in: runs and their ends (R269), the premises about the agents (R7, R262, R266, R270), the
shape of the trace (R132), and the invariant of the machine. -/

namespace Sys2Proof.Machine

/-- A number of steps, up to the first stop. -/
def steps : Nat → State → Host.Outcome State Fault Refusal
  | 0, s => .next s
  | k + 1, s =>
    match step s with
    | .next t    => steps k t
    | .fault r   => .fault r
    | .refused r => .refused r

/-- The state an outcome goes on in, if it goes on. -/
def nextOf : Host.Outcome State Fault Refusal → Option State
  | .next s => some s
  | .fault _ => none
  | .refused _ => none

/-- The block accepts a command: no fault so far and not busy (R120). -/
def State.ready (s : State) : Bool := !s.err && !s.busy

/-- The state with a first fault recorded and nothing else changed (R231). -/
def State.faultedWith (s : State) (c : FaultCode) (info : Word) : State :=
  { s with err := true, errCode := c, errInfo := info }

/-- The run has ended (R269). -/
def State.ended (s : State) : Bool := s.host.isEmpty && !s.busy && !s.err && s.phase != .hung

/-- The run has faulted; such a state is never final (R269). -/
def State.hasFaulted (s : State) : Bool := s.err

/-- The run is stuck in HUNG until reset (R235). -/
def State.isHung (s : State) : Bool := s.phase == .hung

/-- Micro-ops are pending: a stall, if the bus/peripheral agent never completes them (R235). -/
def State.isPending (s : State) : Bool := !s.mq.isEmpty

/-- The next step is a reset, external or a host statement (R99, R260). -/
def State.resetDue (s : State) : Bool :=
  match s.turns with
  | .reset :: _ => true
  | .host :: _  => s.host.head? == some .reset
  | _           => false

/-- The next step is a completion: the agent's turn with a micro-op pending (R121). -/
def State.completionDue (s : State) : Bool :=
  match s.turns with
  | .bus _ :: _ => !s.mq.isEmpty
  | _           => false

/-! ## Infinite runs and the premises of R7

A step reads the turns to come off a list, so a run that never ends is a sequence of states with the turn taken from each. -/

/-- The state with one turn to come, or none. -/
def State.due (s : State) (t : Option Turn) : State := { s with turns := t.toList }

/-- A bus transaction is in progress: a micro-op is pending, or the bus is not released (log 16). -/
def State.inTransaction (s : State) : Bool := s.busy || s.phase != .idle

/-- The turn stands for something that can happen in this state: the host has an action left, the agent a micro-op to
complete (R121), a reset can come at any time (R260). R72 has no step in which no agent moves. Where the turn is none the run
has come to rest: the host's program is over, or the host is blocked during a transaction (R266). Outside a transaction a
host with an action left takes it, or a reset comes first. DESIGN CHOICE (log 23). -/
def State.allows (s : State) : Option Turn → Bool
  | some .host    => !s.host.isEmpty
  | some (.bus _) => !s.mq.isEmpty
  | some .reset   => true
  | none          => s.host.isEmpty || s.inTransaction

/-- A run (R72): a state for each step, with the turn that is taken from it. -/
structure IsRun (turnAt : Nat → Option Turn) (r : Nat → State) : Prop where
  /-- Each state is the step of the one before. -/
  moves : ∀ k, step ((r k).due (turnAt k)) = .next (r (k + 1))
  /-- Each turn can be taken. -/
  allowed : ∀ k, (r k).allows (turnAt k) = true
  /-- A reset is an event between the steps of R72, so no run is made of resets alone from some step on. DESIGN CHOICE
  (log 23). -/
  notResetsOnly : ∀ k, ∃ m, k ≤ m ∧ turnAt m ≠ some .reset

/-- The k-th step of a run is a completion: the agent's turn while a micro-op is pending (R121). -/
def CompletesAt (turnAt : Nat → Option Turn) (r : Nat → State) (k : Nat) : Prop :=
  ((r k).due (turnAt k)).completionDue = true

/-- `PERIPHERAL_ACKS` (R7): in every turn that completes a uWRITE, the peripheral acknowledges the byte. -/
def PeripheralAcks (turnAt : Nat → Option Turn) (r : Nat → State) : Prop :=
  ∀ k b us a, (r k).mq = .uWrite b :: us → turnAt k = some (.bus a) → a.ack = .ack

/-- `PERIPHERAL_RESPONSIVE` (R7, R270), weak fairness: whenever a micro-op is pending, the agent later takes `Complete()` with
one pending, unless a reset empties the queue first. -/
def PeripheralResponsive (turnAt : Nat → Option Turn) (r : Nat → State) : Prop :=
  ∀ k, (r k).mq ≠ [] → ∃ m, k ≤ m ∧ (CompletesAt turnAt r m ∨ (r m).mq = [])

/-- `BUS_READY` (R7, R262): the platform has made the bus usable. Pins and controller are below the model's level, so this
says what it comes to here: the bus is not dead, that is, it is not so that micro-ops stay pending for ever and not one is
completed in the whole run. DESIGN CHOICE (log 16). -/
def BusReady (turnAt : Nat → Option Turn) (r : Nat → State) : Prop :=
  (∃ k, ∀ m, k ≤ m → (r m).mq ≠ []) → ∃ m, CompletesAt turnAt r m

/-- `ISR_NONBLOCKING` (R7, R266): the host is not blocked during a transaction. While one is in progress and the host has an
action left, the host later gets its turn, or the transaction is over. -/
def IsrNonblocking (turnAt : Nat → Option Turn) (r : Nat → State) : Prop :=
  ∀ k, (r k).inTransaction = true → (r k).host ≠ [] →
    ∃ m, k ≤ m ∧ (turnAt m = some .host ∨ (r m).inTransaction = false)

/-! How a run comes out (R12, R269). The spec does not say that a run is only one of the three, and here it need not be: one
that faults and also stays stuck both faults and hangs, and one whose fault a reset clears can both fault and end. DESIGN
CHOICE (log 22). -/

/-- The run ends (R269). -/
def RunEnds (r : Nat → State) : Prop := ∃ k, (r k).ended = true

/-- The run faults: ERR = 1 in some state, even if a reset clears it later (R269, log 22). -/
def RunFaults (r : Nat → State) : Prop := ∃ k, (r k).hasFaulted = true

/-- The run hangs (R269), whether or not ERR = 1 (log 22): it stays in HUNG for ever, or a micro-op is pending for ever, or the
host never gets to the end of its program, as it does in a POLL that loops for ever or when it is blocked (R266). -/
def RunHangs (r : Nat → State) : Prop :=
  ∃ k, (∀ m, k ≤ m → (r m).isHung = true) ∨ (∀ m, k ≤ m → (r m).isPending = true) ∨ (∀ m, k ≤ m → (r m).host ≠ [])

/-- What two runs are compared by: the block and its TRACE, without the agents' own states and what the host read. -/
def State.blockView (s : State) : State := { s with reads := [], host := [], turns := [] }

/-- The bus phase after a symbol, or none where the symbol cannot stand (R11, R122). -/
def Phase.afterSymbol : Phase → Symbol → Option Phase
  | .idle, .S => some .addr
  | .addr, .W b .ack => some (if b.getLsbD 0 then .mrx else .mtx)
  | .mtx, .W _ .ack => some .mtx
  | .addr, .W _ .nack => some .hung
  | .mtx, .W _ .nack => some .hung
  | .mtx, .Sr => some .addr
  | .mrxEnd, .Sr => some .addr
  | .mtx, .P => some .idle
  | .mrxEnd, .P => some .idle
  | .mrx, .R _ => some .mrxAck
  | .mrxAck, .A => some .mrx
  | .mrxAck, .N => some .mrxEnd
  | .addr, .X => some .idle
  | .mtx, .X => some .idle
  | .mrx, .X => some .idle
  | .mrxAck, .X => some .idle
  | .mrxEnd, .X => some .idle
  | .hung, .X => some .idle
  | _, _ => none

/-- The phase a trace leads to, symbol by symbol. -/
def phaseAlong : Phase → List Symbol → Option Phase
  | ph, [] => some ph
  | ph, y :: ys => (ph.afterSymbol y).bind (phaseAlong · ys)

/-- `W(b, ACK)*` (R132). -/
inductive DataBytes : List Symbol → Prop where
  | nil : DataBytes []
  | cons (b : Byte) {l : List Symbol} : DataBytes l → DataBytes (.W b .ack :: l)

/-- `(A R(v))* N` (R132). -/
inductive ReadTail : List Symbol → Prop where
  | last : ReadTail [.N]
  | more (v : Byte) {l : List Symbol} : ReadTail l → ReadTail (.A :: .R v :: l)

/-- `Seg ::= WSeg | RSeg` (R132). -/
inductive Seg : List Symbol → Prop where
  | write (aw : Byte) {l : List Symbol} : aw.getLsbD 0 = false → DataBytes l → Seg (.W aw .ack :: l)
  | read (ar v : Byte) {l : List Symbol} : ar.getLsbD 0 = true → ReadTail l → Seg (.W ar .ack :: .R v :: l)

/-- `Seg (Sr Seg)*` (R132). -/
inductive Segs : List Symbol → Prop where
  | one {l : List Symbol} : Seg l → Segs l
  | more {l r : List Symbol} : Seg l → Segs r → Segs (l ++ .Sr :: r)

/-- `Txn ::= S Seg (Sr Seg)* P` (R132). -/
inductive Txn : List Symbol → Prop where
  | mk {l : List Symbol} : Segs l → Txn (.S :: l ++ [.P])

/-- A sequence of complete transactions (R132). -/
inductive Txns : List Symbol → Prop where
  | nil : Txns []
  | cons {l r : List Symbol} : Txn l → Txns r → Txns (l ++ r)

/-- An incomplete transaction: a part of one from its start on, or one that ends in an unacknowledged byte where a byte may
stand (R132). -/
inductive PartTxn : List Symbol → Prop where
  | cut {l r : List Symbol} : l ≠ [] → r ≠ [] → Txn (l ++ r) → PartTxn l
  | refused {l r : List Symbol} (b : Byte) : Txn (l ++ .W b .ack :: r) → PartTxn (l ++ [.W b .nack])

/-- The whole trace: complete transactions, possibly an incomplete one at the end, and X after one that a reset cut short
(R132, R260). -/
inductive TraceShape : List Symbol → Prop where
  | complete {l : List Symbol} : Txns l → TraceShape l
  | incomplete {l r : List Symbol} : Txns l → PartTxn r → TraceShape (l ++ r)
  | abandoned {l r u : List Symbol} : Txns l → PartTxn r → TraceShape u → TraceShape (l ++ r ++ .X :: u)

/-- The pending micro-ops can complete one after the other from this phase and BUFPTR, every byte being acknowledged: each
stands where its phase allows it, and no byte is received beyond the buffer (R122, R129). -/
def queueFits : Phase → Nat → List MicroOp → Bool
  | _, _, [] => true
  | ph, _, .uStart :: us => ph == .idle && queueFits .addr 0 us
  | ph, n, .uRestart :: us => (ph == .mtx || ph == .mrxEnd) && queueFits .addr n us
  | ph, n, .uStop :: us => (ph == .mtx || ph == .mrxEnd) && queueFits .idle n us
  | ph, n, .uWrite b :: us => (ph == .addr || ph == .mtx) && queueFits (phaseAfterWrite ph b) n us
  | ph, n, .uRead :: us => ph == .mrx && n < Config.bufCap && queueFits .mrxAck (n + 1) us
  | ph, n, .uAck :: us => ph == .mrxAck && queueFits .mrx n us
  | ph, n, .uNack :: us => ph == .mrxAck && queueFits .mrxEnd n us

/-- What every step keeps. -/
structure State.Inv (s : State) : Prop where
  /-- Exactly the bytes below BUFPTR hold a value (R24, R25). -/
  filled : s.buf.map Prod.fst = List.range s.bufPtr.toNat
  /-- BUFPTR never exceeds 22 (R25). -/
  pointer : s.bufPtr.toNat ≤ Config.bufCap
  /-- MQ holds at most 50 micro-ops (R22). -/
  queueShort : s.mq.length ≤ Config.queueCap
  /-- MQ can complete from here (R122, R129). -/
  queueLegal : queueFits s.phase s.bufPtr.toNat s.mq = true
  /-- NACKED is set exactly while HUNG (R23). -/
  nackedHung : s.nacked = true ↔ s.phase = .hung
  /-- A hung engine has nothing pending (R128). -/
  hungEmpty : s.phase = .hung → s.mq = []
  /-- ERRCODE and ERRINFO are 0 while ERR = 0 (R27, R28). -/
  noFault : s.err = false → s.errCode = .none ∧ s.errInfo = 0
  /-- ERRCODE names a fault while ERR = 1 (R27). -/
  fault : s.err = true → s.errCode ≠ .none
  /-- After a register-access fault only ERRINFO[5:0] and ERRINFO[8] can be set (R39). -/
  accessInfo : s.errCode = .readInvalid ∨ s.errCode = .badRegister → s.errInfo &&& 0xFFFFFEC0 = 0
  /-- OSS is 0 until SETOSS writes it (R30). -/
  defaultOss : s.ossSet = false → s.oss = 0
  /-- UP stays below 2^(16+OSS) (R32). -/
  pressureWidth : ∀ v, s.up = some v → v.toNat < 2 ^ (16 + s.oss.toNat)
  /-- T and P exist only once every input of a COMP was loaded (R33, R190). -/
  resultInputs : s.resv = true → s.calv = true ∧ s.utv = true ∧ s.upv = true
  /-- TRACE leads to PHASE (R20, R132). -/
  tracePhase : phaseAlong .idle s.trace = some s.phase

end Sys2Proof.Machine
end

