-- ==== Sys2Proof/Certificates/Slice0/Obligations.lean ====
section
/-! DEFINITION. The statements for the provers. An equation between a step's outcome and a state written as `{ s with … }`
is also a frame: every field it does not name is unchanged, every scratch byte among them. -/

open Sys2Proof Sys2Proof.Machine

/-! ## Encoding -/

/-- R92 to R94, R97: every command has exactly one word, and that word decodes to it. -/
def Obligations.DecodeAndEncodeAgree : Prop :=
  ∀ (w : Word) (i : Instr), decode w = .ok i ↔ w = encode i

/-- R93 and R95: the words that spell no command are those with OP 0 or 15 and those that break the must-be-zero rule,
each opcode's zero bits being written out; issuing one is ILLEGAL_COMMAND and nothing else. -/
def Obligations.IllegalWordsFaultAndNothingElse : Prop :=
  ∀ w : Word,
    let op := w.extractLsb' 28 4
    let illegal : Prop :=
      op = 0x0 ∨ op = 0xF ∨ w.extractLsb' 24 4 ≠ 0 ∨
      (op = 0x4 ∧ w.extractLsb' 8 16 ≠ 0) ∨
      (op = 0x8 ∧ w.extractLsb' 16 8 ≠ 0) ∨
      (op = 0x9 ∧ w.extractLsb' 0 8 ≠ 0) ∨
      (op = 0xA ∧ w.extractLsb' 2 22 ≠ 0) ∨
      (op ∉ [0x4, 0x8, 0x9, 0xA] ∧ w.extractLsb' 0 24 ≠ 0)
    (illegal ↔ ∀ i, decode w ≠ .ok i) ∧
    (illegal → ∀ s : State, s.ready = true →
      issue w s = .next { s with err := true, errCode := .illegalCommand, errInfo := w })

/-- R92: no word meets the mask and match of two rows. -/
def Obligations.OpcodeRowsExcludeEachOther : Prop :=
  ∀ w : Word, opRows.countP (fun r => r.spells w) ≤ 1

/-- R100: the encoding examples, as words written out. -/
def Obligations.ExampleWordsDecode : Prop :=
  decode 0x10000000 = .ok .start ∧ decode 0x400000EE = .ok (.write 0xEE) ∧ decode 0x400000EF = .ok (.write 0xEF) ∧
  decode 0x8000F42E = .ok (.wrreg 0xF4 0x2E) ∧ decode 0x8000F434 = .ok (.wrreg 0xF4 0x34) ∧
  decode 0x8000F4F4 = .ok (.wrreg 0xF4 0xF4) ∧ decode 0x9016AA00 = .ok (.rdblk 0xAA 22) ∧
  decode 0x9002F600 = .ok (.rdblk 0xF6 2) ∧ decode 0x9003F600 = .ok (.rdblk 0xF6 3) ∧
  decode 0xA0000003 = .ok (.setoss 3) ∧ decode 0xB0000000 = .ok .loadcal ∧ decode 0xE0000000 = .ok .comp

/-- R101: the host actions of LDCAL, ACQT, ACQP o and CYCLE o, with their command words written out. -/
def Obligations.PseudoInstructionsExpand : Prop :=
  ∀ (w : Config.Waits) (o : BitVec 2),
    let acqt := [HostAction.write 0 0x8000F42E, .poll, .delay w.temp, .write 0 0x9002F600, .poll, .write 0 0xC0000000]
    let acqp := [HostAction.write 0 (0x8000F434 ||| (o.setWidth 32 <<< 6)), .poll, .delay (w.pres o),
      .write 0 0x9003F600, .poll, .write 0 0xD0000000]
    Stmt.actions w .addrw = [.write 0 0x400000EE] ∧ Stmt.actions w .addrr = [.write 0 0x400000EF] ∧
    Stmt.actions w .ldcal = [.write 0 0x9016AA00, .poll, .write 0 0xB0000000] ∧
    Stmt.actions w .acqt = acqt ∧ Stmt.actions w (.acqp o) = acqp ∧
    Stmt.actions w (.cycle o) = acqt ++ acqp ++ [.write 0 0xE0000000]

/-! ## Issue -/

/-- R120, R98: when the host's next action writes a word that decodes to i to CMD and the turn is the host's, the step is
`exec i` on the state in which the turn and the action are taken. The lists of host actions and turns are the model's
(logs 1, 2). -/
def Obligations.StepRunsTheDecodedCommand : Prop :=
  ∀ (s : State) (w : Word) (i : Instr) (p : List HostAction) (ts : List Turn),
    s.turns = .host :: ts → s.host = .write 0x00 w :: p → decode w = .ok i →
    step s = exec i { s with host := p, turns := ts }

/-- R121, R72: a turn of the bus/peripheral agent is its completion. That nothing happens with no turn left, or at an empty
queue, is the model's choice (logs 2, 4). -/
def Obligations.StepTakesTheAgentsTurn : Prop :=
  ∀ s : State,
    (s.turns = [] → step s = .next s) ∧
    (∀ a ts, s.turns = .bus a :: ts → step s = complete a { s with turns := ts }) ∧
    (∀ a, s.mq = [] → complete a s = .next s)

/-- R120, R232: the checks every word meets first, in their order, for the words that spell no command too. -/
def Obligations.EveryWordMeetsTheSameChecks : Prop :=
  ∀ (w : Word) (s : State),
    (s.err = true → issue w s = .next s) ∧
    (s.err = false → s.mq ≠ [] ∨ s.phase = .hung →
      issue w s = .next { s with err := true, errCode := .busyCollision, errInfo := w }) ∧
    (s.err = false → s.mq = [] → s.phase ≠ .hung →
      (∀ e, decode w = .error e → issue w s = .next { s with err := true, errCode := .illegalCommand, errInfo := w }) ∧
      (∀ i, decode w = .ok i → s.phase ∉ legalPhases i →
        issue w s = .next { s with err := true, errCode := .sequence, errInfo := w }))

/-- R233: the three examples of priority, in every state they describe. -/
def Obligations.FaultPriorityExamples : Prop :=
  ∀ s : State, s.err = false →
    (s.busy = true → issue 0x00000000 s = .next { s with err := true, errCode := .busyCollision, errInfo := 0 }) ∧
    (s.phase = .addr → s.busy = false →
      issue 0x9000AA00 s = .next { s with err := true, errCode := .sequence, errInfo := 0x9000AA00 }) ∧
    (s.busy = false → s.calv = true → (∀ i < 22, s.bufv i = false) →
      issue 0xB0000000 s = .next { s with err := true, errCode := .configLocked, errInfo := 0xB0000000 })

/-- The command i is spelled w, and what turns it away in every phase (R120): it is ignored after a fault and
BUSY_COLLISION while busy. A word of its opcode that differs from w under its mask is ILLEGAL_COMMAND. -/
def Sys2Proof.SpelledAndGuarded (i : Instr) (w mask : Word) : Prop :=
  decode w = .ok i ∧
  (∀ s : State,
    (s.err = true → exec i s = .next s) ∧
    (s.err = false → s.busy = true →
      exec i s = .next { s with err := true, errCode := .busyCollision, errInfo := w })) ∧
  ∀ (v : Word) (s : State), s.ready = true → v.extractLsb' 28 4 = w.extractLsb' 28 4 → v &&& mask ≠ w &&& mask →
    issue v s = .next { s with err := true, errCode := .illegalCommand, errInfo := v }

/-! ## Framing primitives: legality, issue and completion -/

/-- R123. -/
def Obligations.StartIssuesAndCompletes : Prop :=
  SpelledAndGuarded .start 0x10000000 0xFFFFFFFF ∧
  (∀ s : State, s.ready = true → s.phase = .idle → exec .start s = .next { s with mq := [.uStart] }) ∧
  (∀ s : State, s.ready = true → s.phase ≠ .idle →
    exec .start s = .next { s with err := true, errCode := .sequence, errInfo := 0x10000000 }) ∧
  (∀ (s : State) (a : Answer) (us : List MicroOp), s.mq = .uStart :: us →
    complete a s = .next { s with mq := us, trace := s.trace ++ [.S], phase := .addr, bufPtr := 0, buf := [] })

/-- R124. -/
def Obligations.RestartIssuesAndCompletes : Prop :=
  SpelledAndGuarded .restart 0x20000000 0xFFFFFFFF ∧
  (∀ s : State, s.ready = true → s.phase = .mtx ∨ s.phase = .mrxEnd →
    exec .restart s = .next { s with mq := [.uRestart] }) ∧
  (∀ s : State, s.ready = true → s.phase ≠ .mtx → s.phase ≠ .mrxEnd →
    exec .restart s = .next { s with err := true, errCode := .sequence, errInfo := 0x20000000 }) ∧
  (∀ (s : State) (a : Answer) (us : List MicroOp), s.mq = .uRestart :: us →
    complete a s = .next { s with mq := us, trace := s.trace ++ [.Sr], phase := .addr })

/-- R125. -/
def Obligations.StopIssuesAndCompletes : Prop :=
  SpelledAndGuarded .stop 0x30000000 0xFFFFFFFF ∧
  (∀ s : State, s.ready = true → s.phase = .mtx ∨ s.phase = .mrxEnd → exec .stop s = .next { s with mq := [.uStop] }) ∧
  (∀ s : State, s.ready = true → s.phase ≠ .mtx → s.phase ≠ .mrxEnd →
    exec .stop s = .next { s with err := true, errCode := .sequence, errInfo := 0x30000000 }) ∧
  (∀ (s : State) (a : Answer) (us : List MicroOp), s.mq = .uStop :: us →
    complete a s = .next { s with mq := us, trace := s.trace ++ [.P], phase := .idle })

/-- R126, R127: the direction of an address byte is its bit 0, and a NACK hangs the engine. -/
def Obligations.WriteIssuesAndCompletes : Prop :=
  ∀ b : Byte,
    SpelledAndGuarded (.write b) (0x40000000 ||| b.setWidth 32) 0xFFFFFF00 ∧
    (∀ s : State, s.ready = true → s.phase = .addr ∨ s.phase = .mtx →
      exec (.write b) s = .next { s with mq := [.uWrite b] }) ∧
    (∀ s : State, s.ready = true → s.phase ≠ .addr → s.phase ≠ .mtx →
      exec (.write b) s =
        .next { s with err := true, errCode := .sequence, errInfo := 0x40000000 ||| b.setWidth 32 }) ∧
    (∀ (s : State) (a : Answer) (us : List MicroOp), s.mq = .uWrite b :: us →
      (a.ack = .nack → complete a s =
        .next { s with mq := [], trace := s.trace ++ [.W b .nack], nacked := true, phase := .hung }) ∧
      (a.ack = .ack → s.phase = .addr → b.getLsbD 0 = true →
        complete a s = .next { s with mq := us, trace := s.trace ++ [.W b .ack], phase := .mrx }) ∧
      (a.ack = .ack → s.phase = .addr → b.getLsbD 0 = false →
        complete a s = .next { s with mq := us, trace := s.trace ++ [.W b .ack], phase := .mtx }) ∧
      (a.ack = .ack → s.phase ≠ .addr →
        complete a s = .next { s with mq := us, trace := s.trace ++ [.W b .ack], phase := .mtx }))

/-- R129: the byte goes to BUF[BUFPTR] and every other scratch byte reads as before. -/
def Obligations.ReadIssuesAndCompletes : Prop :=
  SpelledAndGuarded .read 0x50000000 0xFFFFFFFF ∧
  (∀ s : State, s.ready = true → s.phase = .mrx → s.bufPtr ≠ 22 → exec .read s = .next { s with mq := [.uRead] }) ∧
  (∀ s : State, s.ready = true → s.phase = .mrx → s.bufPtr = 22 →
    exec .read s = .next { s with err := true, errCode := .bufferOverflow, errInfo := 0x50000000 }) ∧
  (∀ s : State, s.ready = true → s.phase ≠ .mrx →
    exec .read s = .next { s with err := true, errCode := .sequence, errInfo := 0x50000000 }) ∧
  (∀ (s : State) (a : Answer) (us : List MicroOp), s.mq = .uRead :: us → s.bufPtr < 22 →
    ∃ m : Memory,
      complete a s = .next { s with
        mq := us, trace := s.trace ++ [.R a.byte], buf := m, bufPtr := s.bufPtr + 1, phase := .mrxAck } ∧
      m.read s.bufPtr.toNat = some a.byte ∧
      ∀ i, i ≠ s.bufPtr.toNat → m.read i = s.buf.read i)

/-- R130. -/
def Obligations.AckIssuesAndCompletes : Prop :=
  SpelledAndGuarded .ack 0x60000000 0xFFFFFFFF ∧
  (∀ s : State, s.ready = true → s.phase = .mrxAck → exec .ack s = .next { s with mq := [.uAck] }) ∧
  (∀ s : State, s.ready = true → s.phase ≠ .mrxAck →
    exec .ack s = .next { s with err := true, errCode := .sequence, errInfo := 0x60000000 }) ∧
  (∀ (s : State) (a : Answer) (us : List MicroOp), s.mq = .uAck :: us →
    complete a s = .next { s with mq := us, trace := s.trace ++ [.A], phase := .mrx })

/-- R131. -/
def Obligations.NackIssuesAndCompletes : Prop :=
  SpelledAndGuarded .nack 0x70000000 0xFFFFFFFF ∧
  (∀ s : State, s.ready = true → s.phase = .mrxAck → exec .nack s = .next { s with mq := [.uNack] }) ∧
  (∀ s : State, s.ready = true → s.phase ≠ .mrxAck →
    exec .nack s = .next { s with err := true, errCode := .sequence, errInfo := 0x70000000 }) ∧
  (∀ (s : State) (a : Answer) (us : List MicroOp), s.mq = .uNack :: us →
    complete a s = .next { s with mq := us, trace := s.trace ++ [.N], phase := .mrxEnd })

/-- R128, R235: a NACK on a written byte drops the queue, and no step but a reset leaves the state it makes: BUSY and
NACKED stay 1, and no symbol is emitted. -/
def Obligations.NackedByteHangsUntilReset : Prop :=
  (∀ (s : State) (b : Byte) (v : Byte) (us : List MicroOp), s.mq = .uWrite b :: us →
    complete ⟨.nack, v⟩ s =
      .next { s with mq := [], trace := s.trace ++ [.W b .nack], nacked := true, phase := .hung }) ∧
  (∀ s : State, s.phase = .hung → s.mq = [] → s.nacked = true → s.resetDue = false →
    ∃ t, step s = .next t ∧ t.phase = .hung ∧ t.mq = [] ∧ t.nacked = true ∧ t.trace = s.trace ∧ t.busy = true)

/-! ## Composite transactions -/

/-- R150: WRREG's issue, and its completion with acknowledged bytes or with a NACK on one of them. The completions come one
after the other in the model's list of turns (log 1), and after a NACK the turns left over pass at an empty queue, which is
the model's choice too (log 4). -/
def Obligations.WrregIssuesAndCompletes : Prop :=
  ∀ reg val : Byte,
    SpelledAndGuarded (.wrreg reg val) (0x80000000 ||| (reg.setWidth 32 <<< 8) ||| val.setWidth 32) 0xFFFF0000 ∧
    (∀ s : State, s.ready = true → s.phase = .idle →
      exec (.wrreg reg val) s =
        .next { s with mq := [.uStart, .uWrite 0xEE, .uWrite reg, .uWrite val, .uStop] }) ∧
    (∀ s : State, s.ready = true → s.phase ≠ .idle →
      exec (.wrreg reg val) s = .next { s with
        err := true, errCode := .sequence, errInfo := 0x80000000 ||| (reg.setWidth 32 <<< 8) ||| val.setWidth 32 }) ∧
    (∀ (s : State) (a0 a1 a2 a3 a4 : Answer) (ts : List Turn),
      s.mq = [.uStart, .uWrite 0xEE, .uWrite reg, .uWrite val, .uStop] →
      s.turns = .bus a0 :: .bus a1 :: .bus a2 :: .bus a3 :: .bus a4 :: ts →
      (a1.ack = .ack → a2.ack = .ack → a3.ack = .ack →
        steps 5 s = .next { s with
          turns := ts, mq := [], phase := .idle, buf := [], bufPtr := 0,
          trace := s.trace ++ [.S, .W 0xEE .ack, .W reg .ack, .W val .ack, .P] }) ∧
      (a1.ack = .nack → steps 5 s = .next { s with
          turns := ts, mq := [], phase := .hung, nacked := true, buf := [], bufPtr := 0,
          trace := s.trace ++ [.S, .W 0xEE .nack] }) ∧
      (a1.ack = .ack → a2.ack = .nack → steps 5 s = .next { s with
          turns := ts, mq := [], phase := .hung, nacked := true, buf := [], bufPtr := 0,
          trace := s.trace ++ [.S, .W 0xEE .ack, .W reg .nack] }) ∧
      (a1.ack = .ack → a2.ack = .ack → a3.ack = .nack → steps 5 s = .next { s with
          turns := ts, mq := [], phase := .hung, nacked := true, buf := [], bufPtr := 0,
          trace := s.trace ++ [.S, .W 0xEE .ack, .W reg .ack, .W val .nack] }))

/-- The micro-ops of RDBLK as R151 writes them. -/
def Sys2Proof.rdblkSequence (reg : Byte) (n : Nat) : List MicroOp :=
  [.uStart, .uWrite 0xEE, .uWrite reg, .uRestart, .uWrite 0xEF]
    ++ (List.range n).flatMap (fun i => [.uRead, if i < n - 1 then .uAck else .uNack])
    ++ [.uStop]

/-- The symbols of a completed RDBLK as R151 writes them, for the bytes v 0 to v (n − 1). -/
def Sys2Proof.rdblkSymbols (reg : Byte) (n : Nat) (v : Nat → Byte) : List Symbol :=
  [.S, .W 0xEE .ack, .W reg .ack, .Sr, .W 0xEF .ack]
    ++ (List.range n).flatMap (fun i => [.R (v i), if i < n - 1 then .A else .N])
    ++ [.P]

/-- R151: RDBLK's checks and its queue. -/
def Obligations.RdblkIssues : Prop :=
  ∀ reg count : Byte,
    let w : Word := 0x90000000 ||| (count.setWidth 32 <<< 16) ||| (reg.setWidth 32 <<< 8)
    SpelledAndGuarded (.rdblk reg count) w 0xFF0000FF ∧
    (∀ s : State, s.ready = true → s.phase = .idle → 1 ≤ count.toNat → count.toNat ≤ 22 →
      exec (.rdblk reg count) s = .next { s with mq := rdblkSequence reg count.toNat }) ∧
    (∀ s : State, s.ready = true → s.phase = .idle → count.toNat = 0 ∨ 22 < count.toNat →
      exec (.rdblk reg count) s = .next { s with err := true, errCode := .countRange, errInfo := w }) ∧
    (∀ s : State, s.ready = true → s.phase ≠ .idle →
      exec (.rdblk reg count) s = .next { s with err := true, errCode := .sequence, errInfo := w })

/-- R151, R153: an RDBLK of count n whose bytes are all acknowledged puts the n bytes into the scratch buffer in the order
received, emits the symbols of R151 and leaves everything else as it was. The completions come one after the other in the
model's list of turns (log 1). -/
def Obligations.RdblkRunsToCompletion : Prop :=
  ∀ (s : State) (reg : Byte) (n : Nat) (as : List Answer) (v : Nat → Byte) (ts : List Turn),
    1 ≤ n → n ≤ 22 → s.mq = rdblkSequence reg n → as.length = 6 + 2 * n → (∀ a ∈ as, a.ack = .ack) →
    (∀ i < n, (as[5 + 2 * i]?).map (·.byte) = some (v i)) →
    s.turns = as.map .bus ++ ts →
    steps (6 + 2 * n) s = .next { s with
      turns := ts, mq := [], phase := .idle,
      trace := s.trace ++ rdblkSymbols reg n v,
      buf := (List.range n).map (fun i => (i, v i)), bufPtr := BitVec.ofNat 5 n }

/-- R152: a completed RDBLK of count n adds n received bytes, n − 1 acknowledges and one not-acknowledge, which stands
immediately after the n-th byte. The completions come one after the other in the model's list of turns (log 1). -/
def Obligations.OneNackPerRdblk : Prop :=
  ∀ (s t : State) (reg : Byte) (n : Nat) (as : List Answer) (ts : List Turn),
    1 ≤ n → n ≤ 22 → s.mq = rdblkSequence reg n → as.length = 6 + 2 * n → (∀ a ∈ as, a.ack = .ack) →
    s.turns = as.map .bus ++ ts → steps (6 + 2 * n) s = .next t →
    ∃ seg front v, t.trace = s.trace ++ seg ∧
      seg.countP (fun y => match y with
        | .R _ => true
        | _ => false) = n ∧
      seg.count .A = n - 1 ∧ seg.count .N = 1 ∧ seg = front ++ [.R v, .N, .P]

/-- The host's program of one command and the waits that follow it (R155). -/
def Sys2Proof.issuedWithPolls (is : List Instr) : List HostAction :=
  is.flatMap fun i => [issueAction i, .poll]

/-- A turn to issue, an answer and a turn to poll, for each answer (R155). -/
def Sys2Proof.turnsWithPolls (as : List Answer) : List Turn :=
  as.flatMap fun a => [.host, .bus a, .host]

/-- R155 for WRREG: whatever the peripheral answers, WRREG and its primitives, each issued after a POLL, leave the block and
its trace in the same state. The two orders of turns are the model's (log 1), and so are the completion's pass at an empty
queue and POLL's one read for each turn (logs 4, 13). -/
def Obligations.WrregEqualsItsPrimitives : Prop :=
  ∀ (s : State) (reg val : Byte) (as : List Answer), s.ready = true → s.phase = .idle → as.length = 5 →
    ∃ t u,
      steps 6 (s.load [issueAction (.wrreg reg val)] (.host :: as.map .bus)) = .next t ∧
      steps 15 (s.load (issuedWithPolls [.start, .write 0xEE, .write reg, .write val, .stop]) (turnsWithPolls as))
        = .next u ∧
      t.blockView = u.blockView

/-- R155 for RDBLK. The two orders of turns are the model's (log 1), and so are the completion's pass at an empty queue and
POLL's one read for each turn (logs 4, 13). -/
def Obligations.RdblkEqualsItsPrimitives : Prop :=
  ∀ (s : State) (reg count : Byte) (as : List Answer), s.ready = true → s.phase = .idle →
    1 ≤ count.toNat → count.toNat ≤ 22 → as.length = 6 + 2 * count.toNat →
    ∃ t u,
      steps (7 + 2 * count.toNat) (s.load [issueAction (.rdblk reg count)] (.host :: as.map .bus)) = .next t ∧
      steps (3 * (6 + 2 * count.toNat))
        (s.load
          (issuedWithPolls ([.start, .write 0xEE, .write reg, .restart, .write 0xEF]
            ++ (List.replicate (count.toNat - 1) [Instr.read, .ack]).flatten ++ [.read, .nack, .stop]))
          (turnsWithPolls as)) = .next u ∧
      t.blockView = u.blockView

/-! ## Oversampling and sample loads -/

/-- R171. -/
def Obligations.SetossWritesOnce : Prop :=
  ∀ oss : BitVec 2,
    SpelledAndGuarded (.setoss oss) (0xA0000000 ||| oss.setWidth 32) 0xFFFFFFFC ∧
    (∀ s : State, s.ready = true → s.ossSet = false → s.upv = false →
      exec (.setoss oss) s = .next { s with oss := oss, ossSet := true }) ∧
    (∀ s : State, s.ready = true → s.ossSet = true ∨ s.upv = true →
      exec (.setoss oss) s =
        .next { s with err := true, errCode := .configLocked, errInfo := 0xA0000000 ||| oss.setWidth 32 })

/-- R172: with every byte received, coefficient k is the big-endian pair (BUF[2k], BUF[2k+1]). -/
def Obligations.LoadcalDecodesTheBytes : Prop :=
  SpelledAndGuarded .loadcal 0xB0000000 0xFFFFFFFF ∧
  (∀ (s : State) (b : Nat → Byte), s.ready = true → s.calv = false → (∀ i < 22, s.buf.read i = some (b i)) →
    exec .loadcal s = .next { s with cal := some {
      ac1 := b 0 ++ b 1, ac2 := b 2 ++ b 3, ac3 := b 4 ++ b 5, ac4 := b 6 ++ b 7, ac5 := b 8 ++ b 9,
      ac6 := b 10 ++ b 11, b1 := b 12 ++ b 13, b2 := b 14 ++ b 15, mb := b 16 ++ b 17, mc := b 18 ++ b 19,
      md := b 20 ++ b 21 } }) ∧
  (∀ s : State, s.ready = true → s.calv = false → (∃ i < 22, s.buf.read i = none) →
    exec .loadcal s = .next { s with err := true, errCode := .unwritten, errInfo := 0xB0000000 }) ∧
  (∀ s : State, s.ready = true → s.calv = true →
    exec .loadcal s = .next { s with err := true, errCode := .configLocked, errInfo := 0xB0000000 })

/-- R173. -/
def Obligations.LoadutAssemblesTwoBytes : Prop :=
  SpelledAndGuarded .loadut 0xC0000000 0xFFFFFFFF ∧
  (∀ (s : State) (b0 b1 : Byte), s.ready = true → s.buf.read 0 = some b0 → s.buf.read 1 = some b1 →
    ∃ v : BitVec 16, exec .loadut s = .next { s with ut := some v } ∧ v.toNat = b0.toNat * 256 + b1.toNat) ∧
  (∀ s : State, s.ready = true → s.buf.read 0 = none ∨ s.buf.read 1 = none →
    exec .loadut s = .next { s with err := true, errCode := .unwritten, errInfo := 0xC0000000 })

/-- R174: UP is the 24-bit value shifted right by 8 − OSS. -/
def Obligations.LoadupShiftsByOversampling : Prop :=
  SpelledAndGuarded .loadup 0xD0000000 0xFFFFFFFF ∧
  (∀ (s : State) (b0 b1 b2 : Byte), s.ready = true →
    s.buf.read 0 = some b0 → s.buf.read 1 = some b1 → s.buf.read 2 = some b2 →
    ∃ v : BitVec 19, exec .loadup s = .next { s with up := some v } ∧
      v.toNat = (b0.toNat * 65536 + b1.toNat * 256 + b2.toNat) / 2 ^ (8 - s.oss.toNat) ∧
      v.toNat < 2 ^ (16 + s.oss.toNat)) ∧
  (∀ s : State, s.ready = true → s.buf.read 0 = none ∨ s.buf.read 1 = none ∨ s.buf.read 2 = none →
    exec .loadup s = .next { s with err := true, errCode := .unwritten, errInfo := 0xD0000000 })

/-- R175: the coefficients give back the bytes they were loaded from, and every set of coefficients comes from bytes. -/
def Obligations.CalibrationRoundTrip : Prop :=
  (∀ (m : Memory) (c : CalSet), m.calSet = some c → ∀ k < 11, ∃ v,
    c.reg k = some v ∧ m.read (2 * k) = some (v.extractLsb' 8 8) ∧ m.read (2 * k + 1) = some (v.extractLsb' 0 8)) ∧
  (∀ c : CalSet, ∃ m : Memory, m.wf = true ∧ m.calSet = some c)

/-- R170: no datapath command touches the bus. From a state that is not busy the queue stays empty; the phase, the trace,
the scratch buffer and its pointer stay as they are in every case. -/
def Obligations.DatapathCommandsLeaveTheBus : Prop :=
  ∀ (i : Instr) (s t : State),
    (i = .loadcal ∨ i = .loadut ∨ i = .loadup ∨ i = .comp ∨ ∃ o, i = .setoss o) → exec i s = .next t →
    t.mq = s.mq ∧ t.phase = s.phase ∧ t.trace = s.trace ∧ t.buf = s.buf ∧ t.bufPtr = s.bufPtr ∧ t.nacked = s.nacked ∧
    t.reads = s.reads ∧ t.draws = s.draws ∧ t.host = s.host ∧ t.turns = s.turns

/-- R133, R120: no command emits a symbol or moves the phase at its issue, whatever it is and however it ends; a bus command
changes nothing but the queue or the three fault fields. -/
def Obligations.IssueFrame : Prop :=
  ∀ (i : Instr) (s : State), ∃ t, exec i s = .next t ∧
    t.trace = s.trace ∧ t.phase = s.phase ∧ t.buf = s.buf ∧ t.bufPtr = s.bufPtr ∧ t.nacked = s.nacked ∧
    t.reads = s.reads ∧ t.draws = s.draws ∧ t.host = s.host ∧ t.turns = s.turns ∧
    (t.err = true ∧ s.err = false → t = { s with err := true, errCode := t.errCode, errInfo := encode i }) ∧
    ((∃ o, i = .setoss o) ∨ (t.oss = s.oss ∧ t.ossSet = s.ossSet)) ∧
    (i = .loadcal ∨ t.cal = s.cal) ∧ (i = .loadut ∨ t.ut = s.ut) ∧ (i = .loadup ∨ t.up = s.up) ∧
    (i = .comp ∨ t.result = s.result)

/-! ## Compensation -/

/-- R190, R194, R215: COMP with every input loaded and no divisor 0 writes T, P and RESV together; with an input missing it
is UNWRITTEN, with a divisor 0 DIV_ZERO, and then it writes nothing. The result is the compensation's, too, which
TemperatureSteps, PressureSteps and CompensationIsA32BitDatapath write out. -/
def Obligations.CompCommitsOrFaults : Prop :=
  SpelledAndGuarded .comp 0xE0000000 0xFFFFFFFF ∧
  (∀ s : State, s.ready = true → s.cal = none ∨ s.ut = none ∨ s.up = none →
    exec .comp s = .next { s with err := true, errCode := .unwritten, errInfo := 0xE0000000 }) ∧
  (∀ (s : State) (c : CalSet) (ut : BitVec 16) (up : BitVec 19), s.ready = true →
    s.cal = some c → s.ut = some ut → s.up = some up →
    let x := compInput c ut up s.oss
    let b5 := stepT3 x
    let b6 := stepP1 b5
    (stepT2Divisor x = 0 ∨ stepP9 x b6 = 0 →
      exec .comp s = .next { s with err := true, errCode := .divZero, errInfo := 0xE0000000 }) ∧
    (stepT2Divisor x ≠ 0 → stepP9 x b6 ≠ 0 →
      exec .comp s = .next { s with result := some {
        t := toWord (stepT4 b5)
        p := toWord (stepP15 (stepP11 (stepP10 x (stepP5 x b6)) (stepP9 x b6))) } }) ∧
    (compensate x = none →
      exec .comp s = .next { s with err := true, errCode := .divZero, errInfo := 0xE0000000 }) ∧
    (∀ r, compensate x = some r → exec .comp s = .next { s with result := some r }))

/-- R196, R198, R199 with the widening of R195: CompT's steps over the registers, the reductions and the roundings of R9
written out. Where the divisor of R197 is 0 there is no result. -/
def Obligations.TemperatureSteps : Prop :=
  ∀ (c : CalSet) (ut : BitVec 16) (up : BitVec 19) (oss : BitVec 2),
    let w (v : Int) : Int := (v + 2 ^ 31) % 2 ^ 32 - 2 ^ 31
    let x1 := w (((ut.toNat : Int) - c.ac6.toNat) * c.ac5.toNat) / 2 ^ 15
    let d := w (x1 + c.md.toInt)
    let b5 := w (x1 + (w (c.mc.toInt * 2048)).tdiv d)
    (d = 0 → compT (compInput c ut up oss) = none) ∧
    (d ≠ 0 → compT (compInput c ut up oss) = some (w (b5 + 8) / 2 ^ 4, b5))

/-- R200 to R209 with the widening of R195: CompP's steps over the registers up to the quotient of R210, the reductions and
the roundings of R9 written out. Where B4 is 0 there is no result. -/
def Obligations.PressureSteps : Prop :=
  ∀ (c : CalSet) (ut : BitVec 16) (up : BitVec 19) (oss : BitVec 2) (b5 : Int),
    let w (v : Int) : Int := (v + 2 ^ 31) % 2 ^ 32 - 2 ^ 31
    let u (v : Int) : Int := v % 2 ^ 32
    let b6 := w (b5 - 4000)
    let q := w (b6 * b6) / 2 ^ 12
    let x3 := w (w (c.b2.toInt * q) / 2 ^ 11 + w (c.ac2.toInt * b6) / 2 ^ 11)
    let b3 := w (w (w (c.ac1.toInt * 4 + x3) * 2 ^ oss.toNat) + 2) / 2 ^ 2
    let y3 := w (w (w (c.ac3.toInt * b6) / 2 ^ 13 + w (c.b1.toInt * q) / 2 ^ 16) + 2) / 2 ^ 2
    let b4 := u ((c.ac4.toNat : Int) * u (w (y3 + 32768))) / 2 ^ 15
    let b7 := u (u ((up.toNat : Int) - b3) * ((50000 >>> oss.toNat : Nat) : Int))
    (b4 = 0 → compP (compInput c ut up oss) b5 = none) ∧
    (b4 ≠ 0 → compP (compInput c ut up oss) b5 = some (stepP15 (w (quotientB7 b7 b4))))

/-- R211 to R214: the correction, the reductions and the roundings of R9 written out. -/
def Obligations.PressureCorrectionSteps : Prop :=
  ∀ p : Int,
    let w (v : Int) : Int := (v + 2 ^ 31) % 2 ^ 32 - 2 ^ 31
    let x1 := w (w ((p / 2 ^ 8) * (p / 2 ^ 8)) * 3038) / 2 ^ 16
    let x2 := w (-7357 * p) / 2 ^ 16
    stepP15 p = w (p + w (w (x1 + x2) + 3791) / 2 ^ 4)

/-- R191 to R193: the compensation is what a 32-bit datapath computes with wrapping additions and multiplications,
arithmetic right shifts, one signed and one unsigned division. -/
def Obligations.CompensationIsA32BitDatapath : Prop :=
  ∀ (c : CalSet) (ut : BitVec 16) (up : BitVec 19) (oss : BitVec 2),
    let s16 (v : BitVec 16) : Word := v.signExtend 32
    let u16 (v : BitVec 16) : Word := v.setWidth 32
    let x1 := ((u16 ut - u16 c.ac6) * u16 c.ac5).sshiftRight 15
    let d := x1 + s16 c.md
    let b5 := x1 + (s16 c.mc * 2048).sdiv d
    let b6 := b5 - 4000
    let q := (b6 * b6).sshiftRight 12
    let x3 := (s16 c.b2 * q).sshiftRight 11 + (s16 c.ac2 * b6).sshiftRight 11
    let b3 := (((s16 c.ac1 * 4 + x3) <<< oss.toNat) + 2).sshiftRight 2
    let y3 := ((s16 c.ac3 * b6).sshiftRight 13 + (s16 c.b1 * q).sshiftRight 16 + 2).sshiftRight 2
    let b4 := (u16 c.ac4 * (y3 + 32768)) >>> 15
    let b7 := (up.setWidth 32 - b3) * (50000#32 >>> oss.toNat)
    let p := if b7.toNat < 0x80000000 then (b7 * 2) / b4 else (b7 / b4) * 2
    let z1 := (((p.sshiftRight 8) * (p.sshiftRight 8)) * 3038).sshiftRight 16
    let z2 := ((-7357) * p).sshiftRight 16
    compensate (compInput c ut up oss) =
      if d = 0 ∨ b4 = 0 then none
      else some { t := (b5 + 8).sshiftRight 4, p := p + (z1 + z2 + 3791).sshiftRight 4 }

/-- R190's example: the vendor's sample calibration, UT = 27898, UP = 23843, OSS = 0. -/
def Obligations.SampleReading : Prop :=
  compensate (compInput
    { ac1 := 408, ac2 := -72, ac3 := -14383, ac4 := 32741, ac5 := 32757, ac6 := 23153,
      b1 := 6190, b2 := 4, mb := -32768, mc := -8711, md := 2868 } 27898 23843 0) = some { t := 150, p := 69964 }

/-- R216: the B7 branch against the exact quotient E. -/
def Obligations.QuotientAgainstExactDivision : Prop :=
  ∀ b7 b4 : Int, 0 ≤ b7 → b7 < 2 ^ 32 → 1 ≤ b4 → b4 < 2 ^ 32 →
    let e := (2 * b7) / b4
    let k := b7 / b4
    let r := b7 % b4
    (b7 < 0x80000000 → quotientB7 b7 b4 = e) ∧
    (0x80000000 ≤ b7 → 2 ≤ b4 →
      quotientB7 b7 b4 = 2 * k ∧ (2 * r < b4 → quotientB7 b7 b4 = e) ∧ (b4 ≤ 2 * r → quotientB7 b7 b4 = e - 1)) ∧
    (0x80000000 ≤ b7 → b4 = 1 → r = 0 ∧ quotientB7 b7 b4 = e - 2 ^ 32)

/-- R217: whatever MB is, COMP does the same: with another MB in place it leaves the same state, but for that MB. -/
def Obligations.CompIgnoresMb : Prop :=
  ∀ (s : State) (c : CalSet) (mb : BitVec 16) (t : State), s.cal = some c → exec .comp s = .next t →
    exec .comp { s with cal := some { c with mb := mb } } = .next { t with cal := some { c with mb := mb } }

/-- R218: two COMPs that complete give the same T if they agree in UT, AC5, AC6, MC and MD. -/
def Obligations.TemperatureDependsOnFiveInputs : Prop :=
  ∀ (c c' : CalSet) (ut : BitVec 16) (up up' : BitVec 19) (oss oss' : BitVec 2) (r r' : Reading),
    c.ac5 = c'.ac5 → c.ac6 = c'.ac6 → c.mc = c'.mc → c.md = c'.md →
    compensate (compInput c ut up oss) = some r → compensate (compInput c' ut up' oss') = some r' → r.t = r'.t

/-! ## The host's registers -/

/-- R38: every field of STATUS, the values it can have, its reserved bits and its reset value, with BUSY as R21 derives it
and the codes of PHASE and ERRCODE as the tables of R20 and R230 give them. That BUFPTR stays at most 22 is the
invariant's. -/
def Obligations.StatusLayout : Prop :=
  ∀ s : State,
    s.status.getLsbD 0 = s.busy ∧ s.status.getLsbD 1 = s.err ∧ s.status.getLsbD 2 = s.nacked ∧
    s.status.getLsbD 3 = s.cal.isSome ∧ s.status.getLsbD 4 = s.ut.isSome ∧ s.status.getLsbD 5 = s.up.isSome ∧
    s.status.getLsbD 6 = s.result.isSome ∧ s.status.getLsbD 7 = s.ossSet ∧
    s.status.extractLsb' 8 3 = s.phase.code ∧ s.status.extractLsb' 11 5 = s.bufPtr ∧
    s.status.extractLsb' 16 4 = s.errCode.number ∧ s.status.extractLsb' 20 2 = s.oss ∧
    s.status.extractLsb' 22 10 = 0 ∧
    s.phase.code.toNat ≤ 6 ∧ s.errCode.number.toNat ≤ 10 ∧ (s.Inv → s.bufPtr.toNat ≤ 22) ∧
    State.reset.status = 0 ∧
    (s.status.getLsbD 0 = true ↔ s.mq ≠ [] ∨ s.phase = .hung) ∧
    (let phase := s.status.extractLsb' 8 3
     (s.phase = .idle → phase = 0) ∧ (s.phase = .addr → phase = 1) ∧ (s.phase = .mtx → phase = 2) ∧
     (s.phase = .mrx → phase = 3) ∧ (s.phase = .mrxAck → phase = 4) ∧ (s.phase = .mrxEnd → phase = 5) ∧
     (s.phase = .hung → phase = 6)) ∧
    (let code := s.status.extractLsb' 16 4
     (s.errCode = .none → code = 0) ∧ (s.errCode = .illegalCommand → code = 1) ∧
     (s.errCode = .busyCollision → code = 2) ∧ (s.errCode = .sequence → code = 3) ∧
     (s.errCode = .countRange → code = 4) ∧ (s.errCode = .bufferOverflow → code = 5) ∧
     (s.errCode = .unwritten → code = 6) ∧ (s.errCode = .configLocked → code = 7) ∧
     (s.errCode = .divZero → code = 8) ∧ (s.errCode = .readInvalid → code = 9) ∧
     (s.errCode = .badRegister → code = 10))

/-- R40: bit i of BUFVALID is 1 exactly when scratch byte i holds a value, for i below 22; at reset it reads 0. -/
def Obligations.BufvalidLayout : Prop :=
  (∀ (s : State) (i : Nat), s.bufValid.getLsbD i = (decide (i < 22) && (s.buf.read i).isSome)) ∧ State.reset.bufValid = 0

/-- R61, R62, R41: what a host read of each register does. A read of a value changes nothing but what the host has read; a
read of a data register that holds none is READ_INVALID and a read of any other number BAD_REGISTER, both returning a draw,
whatever its value is. The list of turns, the list of values read and the draw's place in it are the model's (logs 1, 6, 7
and 9). -/
def Obligations.HostReads : Prop :=
  ∀ (s : State) (n : RegNum) (p : List HostAction) (ts : List Turn),
    s.turns = .host :: ts → s.host = .read n :: p →
    let r : State := { s with host := p, turns := ts }
    let gets (v : Word) : Prop := step s = .next { r with reads := s.reads ++ [⟨n, v⟩] }
    let faults (c : FaultCode) : Prop :=
      step s = .next { r with
        reads := s.reads ++ [⟨n, Config.drawWord s.draws⟩], draws := s.draws + 1, err := true,
        errCode := if s.err then s.errCode else c, errInfo := if s.err then s.errInfo else n.setWidth 32 }
    let data (o : Option Word) : Prop := match o with
      | some v => gets v
      | none   => faults .readInvalid
    (n = 0x01 → gets s.status) ∧ (n = 0x02 → gets s.errInfo) ∧ (n = 0x03 → gets s.bufValid) ∧
    (n = 0x04 → data (s.ut.map (·.setWidth 32))) ∧ (n = 0x05 → data (s.up.map (·.setWidth 32))) ∧
    (n = 0x06 → data (s.result.map (·.t))) ∧ (n = 0x07 → data (s.result.map (·.p))) ∧
    (0x08 ≤ n.toNat → n.toNat ≤ 0x12 → data (s.cal.bind fun c => (c.reg (n.toNat - 8)).map fun v =>
      if n = 0x0B ∨ n = 0x0C ∨ n = 0x0D then v.setWidth 32 else v.signExtend 32)) ∧
    (0x20 ≤ n.toNat → n.toNat ≤ 0x35 → data ((s.buf.read (n.toNat - 0x20)).map (·.setWidth 32))) ∧
    (n = 0x00 ∨ (0x13 ≤ n.toNat ∧ n.toNat ≤ 0x1F) ∨ 0x36 ≤ n.toNat → faults .badRegister)

/-- R63: a host write to CMD issues its word; a write to any other number is BAD_REGISTER and the value is discarded. The
lists of turns and of host actions are the model's (logs 1, 2). -/
def Obligations.HostWrites : Prop :=
  ∀ (s : State) (n : RegNum) (v : Word) (p : List HostAction) (ts : List Turn),
    s.turns = .host :: ts → s.host = .write n v :: p →
    let r : State := { s with host := p, turns := ts }
    (n = 0x00 → step s = issue v r) ∧
    (n ≠ 0x00 → step s = .next { r with
      err := true, errCode := if s.err then s.errCode else .badRegister,
      errInfo := if s.err then s.errInfo else 0x100 ||| n.setWidth 32 })

/-- R99: POLL reads STATUS and ends exactly when it reads BUSY = 0; DELAY changes no block state. One read for each turn of
the host is the model's (log 13). -/
def Obligations.PollWaitsForBusy : Prop :=
  ∀ (s : State) (p : List HostAction) (ts : List Turn), s.turns = .host :: ts →
    (s.host = .poll :: p →
      step s = .next { s with
        turns := ts, host := if s.busy then s.host else p, reads := s.reads ++ [⟨0x01, s.status⟩] }) ∧
    (∀ t, s.host = .delay t :: p → step s = .next { s with turns := ts, host := p })

/-! ## Faults, flags and reset -/

/-- R231, R236: once a fault is recorded, no step but a reset changes ERR, ERRCODE or ERRINFO. -/
def Obligations.FirstFaultStays : Prop :=
  ∀ s t : State, s.err = true → s.resetDue = false → step s = .next t →
    t.err = true ∧ t.errCode = s.errCode ∧ t.errInfo = s.errInfo

/-- R234: after a fault every command word is ignored, a bus command in progress still completes as it would have, and host
reads still work. -/
def Obligations.FaultedBlockIgnoresCommands : Prop :=
  ∀ s : State, s.err = true →
    (∀ w, issue w s = .next s) ∧
    (∀ a t, complete a { s with err := false, errCode := .none, errInfo := 0 } = .next t →
      complete a s = .next { t with err := true, errCode := s.errCode, errInfo := s.errInfo }) ∧
    (∀ (p : List HostAction) (ts : List Turn), s.turns = .host :: ts → s.host = .read 0x01 :: p →
      step s = .next { s with host := p, turns := ts, reads := s.reads ++ [⟨0x01, s.status⟩] })

/-- R37, R29, R30: no step but a reset clears ERR, NACKED, CALV, UTV, UPV, RESV or OSSSET, and CAL and a set OSS keep their
values. -/
def Obligations.OnlyResetClearsFlags : Prop :=
  ∀ s t : State, s.resetDue = false → step s = .next t →
    (s.err = true → t.err = true) ∧ (s.nacked = true → t.nacked = true) ∧
    (∀ c, s.cal = some c → t.cal = some c) ∧ (s.utv = true → t.utv = true) ∧ (s.upv = true → t.upv = true) ∧
    (s.resv = true → t.resv = true) ∧ (s.ossSet = true → t.ossSet = true ∧ t.oss = s.oss)

/-- R20, R121, R133: only a completion or a reset changes PHASE or TRACE, and a completion emits exactly one symbol and
removes the head of MQ, or all of it. -/
def Obligations.OnlyCompletionsAndResetMoveTheBus : Prop :=
  ∀ s t : State, step s = .next t →
    (s.completionDue = false → s.resetDue = false → t.phase = s.phase ∧ t.trace = s.trace) ∧
    (s.completionDue = true → (∃ y, t.trace = s.trace ++ [y]) ∧ (t.mq = s.mq.tail ∨ t.mq = []))

/-- R260, R43: what reset leaves, whether it is the external event or the host's statement. That what the host read, the
draws, the host's program and the turns stay is the model's choice (log 14). -/
def Obligations.ResetValues : Prop :=
  ∀ (s : State) (ts : List Turn),
    let after (h : List HostAction) : State :=
      { phase := .idle, mq := [], nacked := false, buf := [], bufPtr := 0, err := false, errCode := .none, errInfo := 0,
        cal := none, oss := 0, ossSet := false, ut := none, up := none, result := none,
        trace := if s.phase = .idle then s.trace else s.trace ++ [.X],
        reads := s.reads, draws := s.draws, host := h, turns := ts }
    (s.turns = .reset :: ts → step s = .next (after s.host)) ∧
    (∀ p, s.turns = .host :: ts → s.host = .reset :: p → step s = .next (after p))

/-- R43: right after power-on STATUS, ERRINFO and BUFVALID read 0, and a read of each data register, UT to CAL10 and BUF0 to
BUF21, is READ_INVALID (R42, R62) with a draw for its value. That TRACE is empty then is the model's reading of R44
(log 19); the place of the draw and the list of values read are the model's (logs 6, 7). -/
def Obligations.ResetStateReads : Prop :=
  State.reset.status = 0 ∧ State.reset.errInfo = 0 ∧ State.reset.bufValid = 0 ∧ State.reset.trace = [] ∧
  ∀ n : RegNum, (0x04 ≤ n.toNat ∧ n.toNat ≤ 0x12) ∨ (0x20 ≤ n.toNat ∧ n.toNat ≤ 0x35) →
    State.reset.regRead n = { State.reset with
      err := true, errCode := .readInvalid, errInfo := n.setWidth 32,
      reads := [⟨n, Config.drawWord State.reset.draws⟩], draws := State.reset.draws + 1 }

/-! ## The machine as a whole -/

/-- The invariant holds right after power-on, whatever the host's program and the order of turns. -/
def Obligations.InvariantHoldsAtReset : Prop :=
  ∀ (p : List HostAction) (ts : List Turn), (State.reset.load p ts).Inv

/-- Every step from a state with the invariant keeps it. -/
def Obligations.StepKeepsTheInvariant : Prop :=
  ∀ s t : State, s.Inv → step s = .next t → t.Inv

/-- From a state with the invariant the machine never stops: every step has a next state. -/
def Obligations.EveryStepGoesOn : Prop :=
  ∀ s : State, s.Inv → ∃ t, step s = .next t

/-- The invariant puts the scratch buffer in its canonical form: rising indexes, all below 22 (R24). -/
def Obligations.ScratchBufferIsCanonical : Prop :=
  ∀ s : State, s.Inv → s.buf.wf = true ∧ ∀ i, s.bufv i = decide (i < s.bufPtr.toNat)

/-- R132: the trace of every state with the invariant, and so of every run from power-on, whatever the host's program, the
order of turns and the peripheral's answers, is made of complete transactions of the grammar, with an incomplete one only at
the end or before an X. -/
def Obligations.TraceFollowsTheGrammar : Prop :=
  (∀ s : State, s.Inv → TraceShape s.trace) ∧
  (∀ (p : List HostAction) (ts : List Turn) (k : Nat) (t : State),
    steps k (State.reset.load p ts) = .next t → TraceShape t.trace)

/-- R270, R121: where the agent gets a turn for each pending micro-op and acknowledges every byte, BUSY falls. The finite
form of the premises is the model's (log 16). -/
def Obligations.BusyFallsWhenThePeripheralResponds : Prop :=
  ∀ (s : State) (as : List Answer) (ts : List Turn), s.Inv → s.phase ≠ .hung → as.length = s.mq.length →
    (∀ a ∈ as, a.ack = .ack) → s.turns = as.map .bus ++ ts →
    ∃ t, steps s.mq.length s = .next t ∧ t.busy = false ∧ t.turns = ts

/-! ## Infinite runs -/

/-- R7, R262: `BUS_READY` follows from `PERIPHERAL_RESPONSIVE`. What the two say of a run is the model's (log 16). -/
def Obligations.ResponsivePeripheralMeansBusReady : Prop :=
  ∀ (turnAt : Nat → Option Turn) (r : Nat → State), PeripheralResponsive turnAt r → BusReady turnAt r

/-- R270, R121: in every run of a responsive peripheral that acknowledges, BUSY falls again and again, whatever the host
does, whatever the order of turns and wherever resets fall. What a run is and the form of the premises are the model's
(logs 16, 23). -/
def Obligations.BusyFallsInEveryResponsiveRun : Prop :=
  ∀ (turnAt : Nat → Option Turn) (r : Nat → State), IsRun turnAt r → PeripheralResponsive turnAt r →
    PeripheralAcks turnAt r → (r 0).phase ≠ .hung → ∀ k, ∃ m, k ≤ m ∧ (r m).busy = false

/-- R269, R270: under the three premises R270 names every run of a host program ends or faults. What a run is, how its
outcomes are told apart and the form of the premises are the model's (logs 16, 22, 23). So is that the host's program stands
where it was after an external reset (log 14): with a watchdog that restarts it, a run with reset after reset need not end. -/
def Obligations.HostProgramEndsOrFaults : Prop :=
  ∀ (turnAt : Nat → Option Turn) (r : Nat → State), IsRun turnAt r → PeripheralResponsive turnAt r →
    PeripheralAcks turnAt r → IsrNonblocking turnAt r → (r 0).phase ≠ .hung →
    RunEnds r ∨ RunFaults r

/-- R270, R235: without `PERIPHERAL_RESPONSIVE` a pending micro-op may stall for ever. From every state without a fault that
has one pending while the host waits in a POLL, there is a run that hangs, and neither ends nor faults, although the other
premises hold, and in it the bus is not ready either. What a run is and how its outcomes are told apart are the model's
(logs 16, 22, 23). -/
def Obligations.StallHangsWithoutResponsiveness : Prop :=
  ∀ (s : State) (p : List HostAction), s.err = false → s.mq ≠ [] → s.host = .poll :: p →
    ∃ (turnAt : Nat → Option Turn) (r : Nat → State), r 0 = s ∧ IsRun turnAt r ∧ PeripheralAcks turnAt r ∧
      IsrNonblocking turnAt r ∧ ¬ PeripheralResponsive turnAt r ∧
      ¬ BusReady turnAt r ∧ RunHangs r ∧ ¬ RunEnds r ∧ ¬ RunFaults r ∧ ∀ k, (r k).mq = s.mq
end

