-- ==== Sys2Proof/Laws/Encoding.lean ====
section
/-! SUPPORT. The fields of a command word are the ones it was built from (R91). -/

namespace Sys2Proof

/-- A bit of a field placed in a word. -/
theorem getLsbD_fieldAt {n : Nat} (lo : Nat) (v : BitVec n) (i : Nat) :
    (fieldAt lo v).getLsbD i = (decide (i < 32) && !decide (i < lo) && v.getLsbD (i - lo)) := by
  rw [fieldAt, BitVec.getLsbD_shiftLeft, BitVec.getLsbD_setWidth]
  by_cases h : i < 32
  · simp [h, show i - lo < 32 by omega]
  · simp [h]

/-- A bit of a command word: one of its five fields' (R91). -/
theorem getLsbD_commandWord (op rsv : BitVec 4) (cnt reg data : Byte) {i : Nat} (hi : i < 32) :
    (commandWord op rsv cnt reg data).getLsbD i =
      if i < 8 then data.getLsbD i else if i < 16 then reg.getLsbD (i - 8) else if i < 24 then cnt.getLsbD (i - 16)
      else if i < 28 then rsv.getLsbD (i - 24) else op.getLsbD (i - 28) := by
  have above {n : Nat} (v : BitVec n) (k : Nat) (h : n ≤ k) : v.getLsbD k = false := BitVec.getLsbD_of_ge v k h
  simp only [commandWord, BitVec.getLsbD_or, getLsbD_fieldAt, hi, decide_true, Bool.true_and]
  split_ifs with h1 h2 h3 h4
  · simp [h1, show i < 16 by omega, show i < 24 by omega, show i < 28 by omega]
  · simp [h1, h2, show i < 24 by omega, show i < 28 by omega, above data i (by omega)]
  · simp [h1, h2, h3, show i < 28 by omega, above data i (by omega), above reg (i - 8) (by omega)]
  · simp [h1, h2, h3, h4, above data i (by omega), above reg (i - 8) (by omega), above cnt (i - 16) (by omega)]
  · simp [h1, h2, h3, h4, above data i (by omega), above reg (i - 8) (by omega), above cnt (i - 16) (by omega),
      above rsv (i - 24) (by omega)]

/-- A field read back: n bits from bit lo on. -/
theorem extract_commandWord {op rsv : BitVec 4} {cnt reg data : Byte} {lo n : Nat} {v : BitVec n}
    (h : ∀ i < n, lo + i < 32 ∧ (commandWord op rsv cnt reg data).getLsbD (lo + i) = v.getLsbD i) :
    (commandWord op rsv cnt reg data).extractLsb' lo n = v := by
  apply BitVec.eq_of_getLsbD_eq
  intro i hi
  simp [hi, (h i hi).2]

theorem opField_commandWord (op rsv : BitVec 4) (cnt reg data : Byte) : opField (commandWord op rsv cnt reg data) = op :=
  extract_commandWord fun i hi => ⟨by omega, by
    rw [getLsbD_commandWord _ _ _ _ _ (by omega)]
    simp [show ¬ 28 + i < 8 by omega, show ¬ 28 + i < 16 by omega, show ¬ 28 + i < 24 by omega]⟩

theorem rsvField_commandWord (op rsv : BitVec 4) (cnt reg data : Byte) : rsvField (commandWord op rsv cnt reg data) = rsv :=
  extract_commandWord fun i hi => ⟨by omega, by
    rw [getLsbD_commandWord _ _ _ _ _ (by omega)]
    simp [show ¬ 24 + i < 8 by omega, show ¬ 24 + i < 16 by omega, show 24 + i < 28 by omega]⟩

theorem cntField_commandWord (op rsv : BitVec 4) (cnt reg data : Byte) : cntField (commandWord op rsv cnt reg data) = cnt :=
  extract_commandWord fun i hi => ⟨by omega, by
    rw [getLsbD_commandWord _ _ _ _ _ (by omega)]
    simp [show ¬ 16 + i < 8 by omega, show 16 + i < 24 by omega]⟩

theorem regField_commandWord (op rsv : BitVec 4) (cnt reg data : Byte) : regField (commandWord op rsv cnt reg data) = reg :=
  extract_commandWord fun i hi => ⟨by omega, by
    rw [getLsbD_commandWord _ _ _ _ _ (by omega)]
    simp [show 8 + i < 16 by omega]⟩

theorem dataField_commandWord (op rsv : BitVec 4) (cnt reg data : Byte) : dataField (commandWord op rsv cnt reg data) = data :=
  extract_commandWord fun i hi => ⟨by omega, by
    rw [getLsbD_commandWord _ _ _ _ _ (by omega)]
    simp [hi]⟩

end Sys2Proof
end

