-- ==== Sys2Proof/Laws/State.lean ====
section
/-! SUPPORT. What each named update of the state leaves in each field, so that no later proof unfolds the update. -/

namespace Sys2Proof.Machine

/-! `State.emit` -/

@[simp] theorem State.emit_phase (s : State) (y : Symbol) : (s.emit y).phase = s.phase := rfl
@[simp] theorem State.emit_mq (s : State) (y : Symbol) : (s.emit y).mq = s.mq := rfl
@[simp] theorem State.emit_nacked (s : State) (y : Symbol) : (s.emit y).nacked = s.nacked := rfl
@[simp] theorem State.emit_buf (s : State) (y : Symbol) : (s.emit y).buf = s.buf := rfl
@[simp] theorem State.emit_bufPtr (s : State) (y : Symbol) : (s.emit y).bufPtr = s.bufPtr := rfl
@[simp] theorem State.emit_err (s : State) (y : Symbol) : (s.emit y).err = s.err := rfl
@[simp] theorem State.emit_errCode (s : State) (y : Symbol) : (s.emit y).errCode = s.errCode := rfl
@[simp] theorem State.emit_errInfo (s : State) (y : Symbol) : (s.emit y).errInfo = s.errInfo := rfl
@[simp] theorem State.emit_cal (s : State) (y : Symbol) : (s.emit y).cal = s.cal := rfl
@[simp] theorem State.emit_oss (s : State) (y : Symbol) : (s.emit y).oss = s.oss := rfl
@[simp] theorem State.emit_ossSet (s : State) (y : Symbol) : (s.emit y).ossSet = s.ossSet := rfl
@[simp] theorem State.emit_ut (s : State) (y : Symbol) : (s.emit y).ut = s.ut := rfl
@[simp] theorem State.emit_up (s : State) (y : Symbol) : (s.emit y).up = s.up := rfl
@[simp] theorem State.emit_result (s : State) (y : Symbol) : (s.emit y).result = s.result := rfl
@[simp] theorem State.emit_trace (s : State) (y : Symbol) : (s.emit y).trace = s.trace ++ [y] := rfl
@[simp] theorem State.emit_reads (s : State) (y : Symbol) : (s.emit y).reads = s.reads := rfl
@[simp] theorem State.emit_draws (s : State) (y : Symbol) : (s.emit y).draws = s.draws := rfl
@[simp] theorem State.emit_host (s : State) (y : Symbol) : (s.emit y).host = s.host := rfl
@[simp] theorem State.emit_turns (s : State) (y : Symbol) : (s.emit y).turns = s.turns := rfl

/-! `State.receive` -/

@[simp] theorem State.receive_phase (s : State) (n : RegNum) (v : Word) : (s.receive n v).phase = s.phase := rfl
@[simp] theorem State.receive_mq (s : State) (n : RegNum) (v : Word) : (s.receive n v).mq = s.mq := rfl
@[simp] theorem State.receive_nacked (s : State) (n : RegNum) (v : Word) : (s.receive n v).nacked = s.nacked := rfl
@[simp] theorem State.receive_buf (s : State) (n : RegNum) (v : Word) : (s.receive n v).buf = s.buf := rfl
@[simp] theorem State.receive_bufPtr (s : State) (n : RegNum) (v : Word) : (s.receive n v).bufPtr = s.bufPtr := rfl
@[simp] theorem State.receive_err (s : State) (n : RegNum) (v : Word) : (s.receive n v).err = s.err := rfl
@[simp] theorem State.receive_errCode (s : State) (n : RegNum) (v : Word) : (s.receive n v).errCode = s.errCode := rfl
@[simp] theorem State.receive_errInfo (s : State) (n : RegNum) (v : Word) : (s.receive n v).errInfo = s.errInfo := rfl
@[simp] theorem State.receive_cal (s : State) (n : RegNum) (v : Word) : (s.receive n v).cal = s.cal := rfl
@[simp] theorem State.receive_oss (s : State) (n : RegNum) (v : Word) : (s.receive n v).oss = s.oss := rfl
@[simp] theorem State.receive_ossSet (s : State) (n : RegNum) (v : Word) : (s.receive n v).ossSet = s.ossSet := rfl
@[simp] theorem State.receive_ut (s : State) (n : RegNum) (v : Word) : (s.receive n v).ut = s.ut := rfl
@[simp] theorem State.receive_up (s : State) (n : RegNum) (v : Word) : (s.receive n v).up = s.up := rfl
@[simp] theorem State.receive_result (s : State) (n : RegNum) (v : Word) : (s.receive n v).result = s.result := rfl
@[simp] theorem State.receive_trace (s : State) (n : RegNum) (v : Word) : (s.receive n v).trace = s.trace := rfl
@[simp] theorem State.receive_reads (s : State) (n : RegNum) (v : Word) : (s.receive n v).reads = s.reads ++ [⟨n, v⟩] := rfl
@[simp] theorem State.receive_draws (s : State) (n : RegNum) (v : Word) : (s.receive n v).draws = s.draws := rfl
@[simp] theorem State.receive_host (s : State) (n : RegNum) (v : Word) : (s.receive n v).host = s.host := rfl
@[simp] theorem State.receive_turns (s : State) (n : RegNum) (v : Word) : (s.receive n v).turns = s.turns := rfl

/-! `State.faultedWith` -/

@[simp] theorem State.faultedWith_phase (s : State) (c : FaultCode) (w : Word) : (s.faultedWith c w).phase = s.phase := rfl
@[simp] theorem State.faultedWith_mq (s : State) (c : FaultCode) (w : Word) : (s.faultedWith c w).mq = s.mq := rfl
@[simp] theorem State.faultedWith_nacked (s : State) (c : FaultCode) (w : Word) : (s.faultedWith c w).nacked = s.nacked := rfl
@[simp] theorem State.faultedWith_buf (s : State) (c : FaultCode) (w : Word) : (s.faultedWith c w).buf = s.buf := rfl
@[simp] theorem State.faultedWith_bufPtr (s : State) (c : FaultCode) (w : Word) : (s.faultedWith c w).bufPtr = s.bufPtr := rfl
@[simp] theorem State.faultedWith_err (s : State) (c : FaultCode) (w : Word) : (s.faultedWith c w).err = true := rfl
@[simp] theorem State.faultedWith_errCode (s : State) (c : FaultCode) (w : Word) : (s.faultedWith c w).errCode = c := rfl
@[simp] theorem State.faultedWith_errInfo (s : State) (c : FaultCode) (w : Word) : (s.faultedWith c w).errInfo = w := rfl
@[simp] theorem State.faultedWith_cal (s : State) (c : FaultCode) (w : Word) : (s.faultedWith c w).cal = s.cal := rfl
@[simp] theorem State.faultedWith_oss (s : State) (c : FaultCode) (w : Word) : (s.faultedWith c w).oss = s.oss := rfl
@[simp] theorem State.faultedWith_ossSet (s : State) (c : FaultCode) (w : Word) : (s.faultedWith c w).ossSet = s.ossSet := rfl
@[simp] theorem State.faultedWith_ut (s : State) (c : FaultCode) (w : Word) : (s.faultedWith c w).ut = s.ut := rfl
@[simp] theorem State.faultedWith_up (s : State) (c : FaultCode) (w : Word) : (s.faultedWith c w).up = s.up := rfl
@[simp] theorem State.faultedWith_result (s : State) (c : FaultCode) (w : Word) : (s.faultedWith c w).result = s.result := rfl
@[simp] theorem State.faultedWith_trace (s : State) (c : FaultCode) (w : Word) : (s.faultedWith c w).trace = s.trace := rfl
@[simp] theorem State.faultedWith_reads (s : State) (c : FaultCode) (w : Word) : (s.faultedWith c w).reads = s.reads := rfl
@[simp] theorem State.faultedWith_draws (s : State) (c : FaultCode) (w : Word) : (s.faultedWith c w).draws = s.draws := rfl
@[simp] theorem State.faultedWith_host (s : State) (c : FaultCode) (w : Word) : (s.faultedWith c w).host = s.host := rfl
@[simp] theorem State.faultedWith_turns (s : State) (c : FaultCode) (w : Word) : (s.faultedWith c w).turns = s.turns := rfl

/-! `State.withCommand` -/

@[simp] theorem State.withCommand_phase (s : State) (w : Word) : (s.withCommand w).phase = s.phase := rfl
@[simp] theorem State.withCommand_mq (s : State) (w : Word) : (s.withCommand w).mq = s.mq := rfl
@[simp] theorem State.withCommand_nacked (s : State) (w : Word) : (s.withCommand w).nacked = s.nacked := rfl
@[simp] theorem State.withCommand_buf (s : State) (w : Word) : (s.withCommand w).buf = s.buf := rfl
@[simp] theorem State.withCommand_bufPtr (s : State) (w : Word) : (s.withCommand w).bufPtr = s.bufPtr := rfl
@[simp] theorem State.withCommand_err (s : State) (w : Word) : (s.withCommand w).err = s.err := rfl
@[simp] theorem State.withCommand_errCode (s : State) (w : Word) : (s.withCommand w).errCode = s.errCode := rfl
@[simp] theorem State.withCommand_errInfo (s : State) (w : Word) : (s.withCommand w).errInfo = s.errInfo := rfl
@[simp] theorem State.withCommand_cal (s : State) (w : Word) : (s.withCommand w).cal = s.cal := rfl
@[simp] theorem State.withCommand_oss (s : State) (w : Word) : (s.withCommand w).oss = s.oss := rfl
@[simp] theorem State.withCommand_ossSet (s : State) (w : Word) : (s.withCommand w).ossSet = s.ossSet := rfl
@[simp] theorem State.withCommand_ut (s : State) (w : Word) : (s.withCommand w).ut = s.ut := rfl
@[simp] theorem State.withCommand_up (s : State) (w : Word) : (s.withCommand w).up = s.up := rfl
@[simp] theorem State.withCommand_result (s : State) (w : Word) : (s.withCommand w).result = s.result := rfl
@[simp] theorem State.withCommand_trace (s : State) (w : Word) : (s.withCommand w).trace = s.trace := rfl
@[simp] theorem State.withCommand_reads (s : State) (w : Word) : (s.withCommand w).reads = s.reads := rfl
@[simp] theorem State.withCommand_draws (s : State) (w : Word) : (s.withCommand w).draws = s.draws := rfl
@[simp] theorem State.withCommand_host (s : State) (w : Word) : (s.withCommand w).host = .write regCmd w :: s.host := rfl
@[simp] theorem State.withCommand_turns (s : State) (w : Word) : (s.withCommand w).turns = .host :: s.turns := rfl

/-! `State.load` -/

@[simp] theorem State.load_phase (s : State) (p : List HostAction) (ts : List Turn) : (s.load p ts).phase = s.phase := rfl
@[simp] theorem State.load_mq (s : State) (p : List HostAction) (ts : List Turn) : (s.load p ts).mq = s.mq := rfl
@[simp] theorem State.load_nacked (s : State) (p : List HostAction) (ts : List Turn) : (s.load p ts).nacked = s.nacked := rfl
@[simp] theorem State.load_buf (s : State) (p : List HostAction) (ts : List Turn) : (s.load p ts).buf = s.buf := rfl
@[simp] theorem State.load_bufPtr (s : State) (p : List HostAction) (ts : List Turn) : (s.load p ts).bufPtr = s.bufPtr := rfl
@[simp] theorem State.load_err (s : State) (p : List HostAction) (ts : List Turn) : (s.load p ts).err = s.err := rfl
@[simp] theorem State.load_errCode (s : State) (p : List HostAction) (ts : List Turn) : (s.load p ts).errCode = s.errCode := rfl
@[simp] theorem State.load_errInfo (s : State) (p : List HostAction) (ts : List Turn) : (s.load p ts).errInfo = s.errInfo := rfl
@[simp] theorem State.load_cal (s : State) (p : List HostAction) (ts : List Turn) : (s.load p ts).cal = s.cal := rfl
@[simp] theorem State.load_oss (s : State) (p : List HostAction) (ts : List Turn) : (s.load p ts).oss = s.oss := rfl
@[simp] theorem State.load_ossSet (s : State) (p : List HostAction) (ts : List Turn) : (s.load p ts).ossSet = s.ossSet := rfl
@[simp] theorem State.load_ut (s : State) (p : List HostAction) (ts : List Turn) : (s.load p ts).ut = s.ut := rfl
@[simp] theorem State.load_up (s : State) (p : List HostAction) (ts : List Turn) : (s.load p ts).up = s.up := rfl
@[simp] theorem State.load_result (s : State) (p : List HostAction) (ts : List Turn) : (s.load p ts).result = s.result := rfl
@[simp] theorem State.load_trace (s : State) (p : List HostAction) (ts : List Turn) : (s.load p ts).trace = s.trace := rfl
@[simp] theorem State.load_reads (s : State) (p : List HostAction) (ts : List Turn) : (s.load p ts).reads = s.reads := rfl
@[simp] theorem State.load_draws (s : State) (p : List HostAction) (ts : List Turn) : (s.load p ts).draws = s.draws := rfl
@[simp] theorem State.load_host (s : State) (p : List HostAction) (ts : List Turn) : (s.load p ts).host = p := rfl
@[simp] theorem State.load_turns (s : State) (p : List HostAction) (ts : List Turn) : (s.load p ts).turns = ts := rfl

/-! `State.due` -/

@[simp] theorem State.due_phase (s : State) (t : Option Turn) : (s.due t).phase = s.phase := rfl
@[simp] theorem State.due_mq (s : State) (t : Option Turn) : (s.due t).mq = s.mq := rfl
@[simp] theorem State.due_nacked (s : State) (t : Option Turn) : (s.due t).nacked = s.nacked := rfl
@[simp] theorem State.due_buf (s : State) (t : Option Turn) : (s.due t).buf = s.buf := rfl
@[simp] theorem State.due_bufPtr (s : State) (t : Option Turn) : (s.due t).bufPtr = s.bufPtr := rfl
@[simp] theorem State.due_err (s : State) (t : Option Turn) : (s.due t).err = s.err := rfl
@[simp] theorem State.due_errCode (s : State) (t : Option Turn) : (s.due t).errCode = s.errCode := rfl
@[simp] theorem State.due_errInfo (s : State) (t : Option Turn) : (s.due t).errInfo = s.errInfo := rfl
@[simp] theorem State.due_cal (s : State) (t : Option Turn) : (s.due t).cal = s.cal := rfl
@[simp] theorem State.due_oss (s : State) (t : Option Turn) : (s.due t).oss = s.oss := rfl
@[simp] theorem State.due_ossSet (s : State) (t : Option Turn) : (s.due t).ossSet = s.ossSet := rfl
@[simp] theorem State.due_ut (s : State) (t : Option Turn) : (s.due t).ut = s.ut := rfl
@[simp] theorem State.due_up (s : State) (t : Option Turn) : (s.due t).up = s.up := rfl
@[simp] theorem State.due_result (s : State) (t : Option Turn) : (s.due t).result = s.result := rfl
@[simp] theorem State.due_trace (s : State) (t : Option Turn) : (s.due t).trace = s.trace := rfl
@[simp] theorem State.due_reads (s : State) (t : Option Turn) : (s.due t).reads = s.reads := rfl
@[simp] theorem State.due_draws (s : State) (t : Option Turn) : (s.due t).draws = s.draws := rfl
@[simp] theorem State.due_host (s : State) (t : Option Turn) : (s.due t).host = s.host := rfl
@[simp] theorem State.due_turns (s : State) (t : Option Turn) : (s.due t).turns = t.toList := rfl

/-! `State.resetBlock` -/

@[simp] theorem State.resetBlock_phase (s : State) : (s.resetBlock).phase = .idle := rfl
@[simp] theorem State.resetBlock_mq (s : State) : (s.resetBlock).mq = [] := rfl
@[simp] theorem State.resetBlock_nacked (s : State) : (s.resetBlock).nacked = false := rfl
@[simp] theorem State.resetBlock_buf (s : State) : (s.resetBlock).buf = [] := rfl
@[simp] theorem State.resetBlock_bufPtr (s : State) : (s.resetBlock).bufPtr = 0 := rfl
@[simp] theorem State.resetBlock_err (s : State) : (s.resetBlock).err = false := rfl
@[simp] theorem State.resetBlock_errCode (s : State) : (s.resetBlock).errCode = .none := rfl
@[simp] theorem State.resetBlock_errInfo (s : State) : (s.resetBlock).errInfo = 0 := rfl
@[simp] theorem State.resetBlock_cal (s : State) : (s.resetBlock).cal = none := rfl
@[simp] theorem State.resetBlock_oss (s : State) : (s.resetBlock).oss = 0 := rfl
@[simp] theorem State.resetBlock_ossSet (s : State) : (s.resetBlock).ossSet = false := rfl
@[simp] theorem State.resetBlock_ut (s : State) : (s.resetBlock).ut = none := rfl
@[simp] theorem State.resetBlock_up (s : State) : (s.resetBlock).up = none := rfl
@[simp] theorem State.resetBlock_result (s : State) : (s.resetBlock).result = none := rfl
@[simp] theorem State.resetBlock_trace (s : State) : (s.resetBlock).trace = if s.phase = .idle then s.trace else s.trace ++ [.X] := rfl
@[simp] theorem State.resetBlock_reads (s : State) : (s.resetBlock).reads = s.reads := rfl
@[simp] theorem State.resetBlock_draws (s : State) : (s.resetBlock).draws = s.draws := rfl
@[simp] theorem State.resetBlock_host (s : State) : (s.resetBlock).host = s.host := rfl
@[simp] theorem State.resetBlock_turns (s : State) : (s.resetBlock).turns = s.turns := rfl

/-! `completeStart` -/

@[simp] theorem completeStart_phase (s : State) : (completeStart s).phase = .addr := rfl
@[simp] theorem completeStart_mq (s : State) : (completeStart s).mq = s.mq := rfl
@[simp] theorem completeStart_nacked (s : State) : (completeStart s).nacked = s.nacked := rfl
@[simp] theorem completeStart_buf (s : State) : (completeStart s).buf = [] := rfl
@[simp] theorem completeStart_bufPtr (s : State) : (completeStart s).bufPtr = 0 := rfl
@[simp] theorem completeStart_err (s : State) : (completeStart s).err = s.err := rfl
@[simp] theorem completeStart_errCode (s : State) : (completeStart s).errCode = s.errCode := rfl
@[simp] theorem completeStart_errInfo (s : State) : (completeStart s).errInfo = s.errInfo := rfl
@[simp] theorem completeStart_cal (s : State) : (completeStart s).cal = s.cal := rfl
@[simp] theorem completeStart_oss (s : State) : (completeStart s).oss = s.oss := rfl
@[simp] theorem completeStart_ossSet (s : State) : (completeStart s).ossSet = s.ossSet := rfl
@[simp] theorem completeStart_ut (s : State) : (completeStart s).ut = s.ut := rfl
@[simp] theorem completeStart_up (s : State) : (completeStart s).up = s.up := rfl
@[simp] theorem completeStart_result (s : State) : (completeStart s).result = s.result := rfl
@[simp] theorem completeStart_trace (s : State) : (completeStart s).trace = s.trace ++ [.S] := rfl
@[simp] theorem completeStart_reads (s : State) : (completeStart s).reads = s.reads := rfl
@[simp] theorem completeStart_draws (s : State) : (completeStart s).draws = s.draws := rfl
@[simp] theorem completeStart_host (s : State) : (completeStart s).host = s.host := rfl
@[simp] theorem completeStart_turns (s : State) : (completeStart s).turns = s.turns := rfl

/-! `completeRestart` -/

@[simp] theorem completeRestart_phase (s : State) : (completeRestart s).phase = .addr := rfl
@[simp] theorem completeRestart_mq (s : State) : (completeRestart s).mq = s.mq := rfl
@[simp] theorem completeRestart_nacked (s : State) : (completeRestart s).nacked = s.nacked := rfl
@[simp] theorem completeRestart_buf (s : State) : (completeRestart s).buf = s.buf := rfl
@[simp] theorem completeRestart_bufPtr (s : State) : (completeRestart s).bufPtr = s.bufPtr := rfl
@[simp] theorem completeRestart_err (s : State) : (completeRestart s).err = s.err := rfl
@[simp] theorem completeRestart_errCode (s : State) : (completeRestart s).errCode = s.errCode := rfl
@[simp] theorem completeRestart_errInfo (s : State) : (completeRestart s).errInfo = s.errInfo := rfl
@[simp] theorem completeRestart_cal (s : State) : (completeRestart s).cal = s.cal := rfl
@[simp] theorem completeRestart_oss (s : State) : (completeRestart s).oss = s.oss := rfl
@[simp] theorem completeRestart_ossSet (s : State) : (completeRestart s).ossSet = s.ossSet := rfl
@[simp] theorem completeRestart_ut (s : State) : (completeRestart s).ut = s.ut := rfl
@[simp] theorem completeRestart_up (s : State) : (completeRestart s).up = s.up := rfl
@[simp] theorem completeRestart_result (s : State) : (completeRestart s).result = s.result := rfl
@[simp] theorem completeRestart_trace (s : State) : (completeRestart s).trace = s.trace ++ [.Sr] := rfl
@[simp] theorem completeRestart_reads (s : State) : (completeRestart s).reads = s.reads := rfl
@[simp] theorem completeRestart_draws (s : State) : (completeRestart s).draws = s.draws := rfl
@[simp] theorem completeRestart_host (s : State) : (completeRestart s).host = s.host := rfl
@[simp] theorem completeRestart_turns (s : State) : (completeRestart s).turns = s.turns := rfl

/-! `completeStop` -/

@[simp] theorem completeStop_phase (s : State) : (completeStop s).phase = .idle := rfl
@[simp] theorem completeStop_mq (s : State) : (completeStop s).mq = s.mq := rfl
@[simp] theorem completeStop_nacked (s : State) : (completeStop s).nacked = s.nacked := rfl
@[simp] theorem completeStop_buf (s : State) : (completeStop s).buf = s.buf := rfl
@[simp] theorem completeStop_bufPtr (s : State) : (completeStop s).bufPtr = s.bufPtr := rfl
@[simp] theorem completeStop_err (s : State) : (completeStop s).err = s.err := rfl
@[simp] theorem completeStop_errCode (s : State) : (completeStop s).errCode = s.errCode := rfl
@[simp] theorem completeStop_errInfo (s : State) : (completeStop s).errInfo = s.errInfo := rfl
@[simp] theorem completeStop_cal (s : State) : (completeStop s).cal = s.cal := rfl
@[simp] theorem completeStop_oss (s : State) : (completeStop s).oss = s.oss := rfl
@[simp] theorem completeStop_ossSet (s : State) : (completeStop s).ossSet = s.ossSet := rfl
@[simp] theorem completeStop_ut (s : State) : (completeStop s).ut = s.ut := rfl
@[simp] theorem completeStop_up (s : State) : (completeStop s).up = s.up := rfl
@[simp] theorem completeStop_result (s : State) : (completeStop s).result = s.result := rfl
@[simp] theorem completeStop_trace (s : State) : (completeStop s).trace = s.trace ++ [.P] := rfl
@[simp] theorem completeStop_reads (s : State) : (completeStop s).reads = s.reads := rfl
@[simp] theorem completeStop_draws (s : State) : (completeStop s).draws = s.draws := rfl
@[simp] theorem completeStop_host (s : State) : (completeStop s).host = s.host := rfl
@[simp] theorem completeStop_turns (s : State) : (completeStop s).turns = s.turns := rfl

/-! `completeAck` -/

@[simp] theorem completeAck_phase (s : State) : (completeAck s).phase = .mrx := rfl
@[simp] theorem completeAck_mq (s : State) : (completeAck s).mq = s.mq := rfl
@[simp] theorem completeAck_nacked (s : State) : (completeAck s).nacked = s.nacked := rfl
@[simp] theorem completeAck_buf (s : State) : (completeAck s).buf = s.buf := rfl
@[simp] theorem completeAck_bufPtr (s : State) : (completeAck s).bufPtr = s.bufPtr := rfl
@[simp] theorem completeAck_err (s : State) : (completeAck s).err = s.err := rfl
@[simp] theorem completeAck_errCode (s : State) : (completeAck s).errCode = s.errCode := rfl
@[simp] theorem completeAck_errInfo (s : State) : (completeAck s).errInfo = s.errInfo := rfl
@[simp] theorem completeAck_cal (s : State) : (completeAck s).cal = s.cal := rfl
@[simp] theorem completeAck_oss (s : State) : (completeAck s).oss = s.oss := rfl
@[simp] theorem completeAck_ossSet (s : State) : (completeAck s).ossSet = s.ossSet := rfl
@[simp] theorem completeAck_ut (s : State) : (completeAck s).ut = s.ut := rfl
@[simp] theorem completeAck_up (s : State) : (completeAck s).up = s.up := rfl
@[simp] theorem completeAck_result (s : State) : (completeAck s).result = s.result := rfl
@[simp] theorem completeAck_trace (s : State) : (completeAck s).trace = s.trace ++ [.A] := rfl
@[simp] theorem completeAck_reads (s : State) : (completeAck s).reads = s.reads := rfl
@[simp] theorem completeAck_draws (s : State) : (completeAck s).draws = s.draws := rfl
@[simp] theorem completeAck_host (s : State) : (completeAck s).host = s.host := rfl
@[simp] theorem completeAck_turns (s : State) : (completeAck s).turns = s.turns := rfl

/-! `completeNack` -/

@[simp] theorem completeNack_phase (s : State) : (completeNack s).phase = .mrxEnd := rfl
@[simp] theorem completeNack_mq (s : State) : (completeNack s).mq = s.mq := rfl
@[simp] theorem completeNack_nacked (s : State) : (completeNack s).nacked = s.nacked := rfl
@[simp] theorem completeNack_buf (s : State) : (completeNack s).buf = s.buf := rfl
@[simp] theorem completeNack_bufPtr (s : State) : (completeNack s).bufPtr = s.bufPtr := rfl
@[simp] theorem completeNack_err (s : State) : (completeNack s).err = s.err := rfl
@[simp] theorem completeNack_errCode (s : State) : (completeNack s).errCode = s.errCode := rfl
@[simp] theorem completeNack_errInfo (s : State) : (completeNack s).errInfo = s.errInfo := rfl
@[simp] theorem completeNack_cal (s : State) : (completeNack s).cal = s.cal := rfl
@[simp] theorem completeNack_oss (s : State) : (completeNack s).oss = s.oss := rfl
@[simp] theorem completeNack_ossSet (s : State) : (completeNack s).ossSet = s.ossSet := rfl
@[simp] theorem completeNack_ut (s : State) : (completeNack s).ut = s.ut := rfl
@[simp] theorem completeNack_up (s : State) : (completeNack s).up = s.up := rfl
@[simp] theorem completeNack_result (s : State) : (completeNack s).result = s.result := rfl
@[simp] theorem completeNack_trace (s : State) : (completeNack s).trace = s.trace ++ [.N] := rfl
@[simp] theorem completeNack_reads (s : State) : (completeNack s).reads = s.reads := rfl
@[simp] theorem completeNack_draws (s : State) : (completeNack s).draws = s.draws := rfl
@[simp] theorem completeNack_host (s : State) : (completeNack s).host = s.host := rfl
@[simp] theorem completeNack_turns (s : State) : (completeNack s).turns = s.turns := rfl

/-! `State.raise`: what it changes is said by `raise_first` and `raise_again`. -/

@[simp] theorem State.raise_phase (s : State) (c : FaultCode) (w : Word) : (s.raise c w).phase = s.phase := by
  unfold State.raise; split <;> rfl
@[simp] theorem State.raise_mq (s : State) (c : FaultCode) (w : Word) : (s.raise c w).mq = s.mq := by
  unfold State.raise; split <;> rfl
@[simp] theorem State.raise_nacked (s : State) (c : FaultCode) (w : Word) : (s.raise c w).nacked = s.nacked := by
  unfold State.raise; split <;> rfl
@[simp] theorem State.raise_buf (s : State) (c : FaultCode) (w : Word) : (s.raise c w).buf = s.buf := by
  unfold State.raise; split <;> rfl
@[simp] theorem State.raise_bufPtr (s : State) (c : FaultCode) (w : Word) : (s.raise c w).bufPtr = s.bufPtr := by
  unfold State.raise; split <;> rfl
@[simp] theorem State.raise_cal (s : State) (c : FaultCode) (w : Word) : (s.raise c w).cal = s.cal := by
  unfold State.raise; split <;> rfl
@[simp] theorem State.raise_oss (s : State) (c : FaultCode) (w : Word) : (s.raise c w).oss = s.oss := by
  unfold State.raise; split <;> rfl
@[simp] theorem State.raise_ossSet (s : State) (c : FaultCode) (w : Word) : (s.raise c w).ossSet = s.ossSet := by
  unfold State.raise; split <;> rfl
@[simp] theorem State.raise_ut (s : State) (c : FaultCode) (w : Word) : (s.raise c w).ut = s.ut := by
  unfold State.raise; split <;> rfl
@[simp] theorem State.raise_up (s : State) (c : FaultCode) (w : Word) : (s.raise c w).up = s.up := by
  unfold State.raise; split <;> rfl
@[simp] theorem State.raise_result (s : State) (c : FaultCode) (w : Word) : (s.raise c w).result = s.result := by
  unfold State.raise; split <;> rfl
@[simp] theorem State.raise_trace (s : State) (c : FaultCode) (w : Word) : (s.raise c w).trace = s.trace := by
  unfold State.raise; split <;> rfl
@[simp] theorem State.raise_reads (s : State) (c : FaultCode) (w : Word) : (s.raise c w).reads = s.reads := by
  unfold State.raise; split <;> rfl
@[simp] theorem State.raise_draws (s : State) (c : FaultCode) (w : Word) : (s.raise c w).draws = s.draws := by
  unfold State.raise; split <;> rfl
@[simp] theorem State.raise_host (s : State) (c : FaultCode) (w : Word) : (s.raise c w).host = s.host := by
  unfold State.raise; split <;> rfl
@[simp] theorem State.raise_turns (s : State) (c : FaultCode) (w : Word) : (s.raise c w).turns = s.turns := by
  unfold State.raise; split <;> rfl

/-- The first fault is recorded (R231). -/
theorem State.raise_first {s : State} (h : s.err = false) (c : FaultCode) (w : Word) :
    s.raise c w = s.faultedWith c w := by
  simp [State.raise, State.faultedWith, h]

/-- A later fault condition records nothing (R231, R236). -/
theorem State.raise_again {s : State} (h : s.err = true) (c : FaultCode) (w : Word) : s.raise c w = s := by
  simp [State.raise, h]

@[simp] theorem State.raise_err (s : State) (c : FaultCode) (w : Word) : (s.raise c w).err = true := by
  unfold State.raise; split <;> simp_all

end Sys2Proof.Machine
end

