-- ==== Sys2Proof/Laws/Ops.lean ====
section
/-! SUPPORT. What each shared operation can do, said once: the issue procedure, register reads, completions and steps. -/

namespace Sys2Proof.Machine

/-- BUSY is 0 exactly when nothing is pending and the engine is not hung (R21). -/
theorem State.busy_eq_false {s : State} : s.busy = false ↔ s.mq = [] ∧ s.phase ≠ .hung := by
  simp [State.busy]

theorem State.ready_iff {s : State} : s.ready = true ↔ s.err = false ∧ s.mq = [] ∧ s.phase ≠ .hung := by
  simp [State.ready, State.busy_eq_false]

/-- Everything the guard of `Issue` can do (R120). -/
theorem issueGuard_cases {w : Word} {s b : State} {o : Host.Outcome State Fault Refusal} (h : issueGuard w s b = o) :
    (s.err = true ∧ o = .next s) ∨
    (s.err = false ∧ s.busy = true ∧ o = .next (s.faultedWith .busyCollision w)) ∨
    (s.ready = true ∧ o = .next b) := by
  unfold issueGuard at h
  split at h
  · next he => exact .inl ⟨he, h.symm⟩
  · next he =>
    simp only [Bool.not_eq_true] at he
    split at h
    · next hb => exact .inr (.inl ⟨he, hb, by rw [← h, State.raise_first he]⟩)
    · next hb => exact .inr (.inr ⟨by simp [State.ready, he, hb], h.symm⟩)

theorem issueGuard_ready {w : Word} {s b : State} (h : s.ready = true) : issueGuard w s b = .next b := by
  rw [State.ready, Bool.and_eq_true, Bool.not_eq_true', Bool.not_eq_true'] at h
  simp [issueGuard, h.1, h.2]

theorem issueGuard_err {w : Word} {s b : State} (h : s.err = true) : issueGuard w s b = .next s := by
  simp [issueGuard, h]

theorem issueGuard_busy {w : Word} {s b : State} (he : s.err = false) (h : s.busy = true) :
    issueGuard w s b = .next (s.faultedWith .busyCollision w) := by
  simp [issueGuard, he, h, State.raise_first he]

/-- The issue of a bus command that is accepted (R120). -/
theorem issueBus_accepted {i : Instr} {ops : List MicroOp} {s : State} (h : s.ready = true)
    (hp : s.phase ∈ legalPhases i) : issueBus i none ops s = .next { s with mq := ops } := by
  simp [issueBus, issueGuard_ready h, hp]

/-- Everything the issue of a bus command can do (R120): the queue or the three fault fields change, and nothing else. -/
theorem issueBus_cases {i : Instr} {check : Option FaultCode} {ops : List MicroOp} {s : State}
    {o : Host.Outcome State Fault Refusal} (h : issueBus i check ops s = o) :
    (s.err = true ∧ o = .next s) ∨
    (s.err = false ∧ ∃ c, o = .next (s.faultedWith c (encode i)) ∧
      ((s.busy = true ∧ c = .busyCollision) ∨
       (s.busy = false ∧ s.phase ∉ legalPhases i ∧ c = .sequence) ∨
       (s.busy = false ∧ s.phase ∈ legalPhases i ∧ check = some c))) ∨
    (s.ready = true ∧ s.phase ∈ legalPhases i ∧ check = none ∧ o = .next { s with mq := ops }) := by
  rcases issueGuard_cases h with h | ⟨he, hb, h⟩ | ⟨hr, h⟩
  · exact .inl h
  · exact .inr (.inl ⟨he, _, h, .inl ⟨hb, rfl⟩⟩)
  · have he : s.err = false := by simp_all [State.ready]
    have hb : s.busy = false := by simp_all [State.ready]
    by_cases hp : s.phase ∈ legalPhases i
    · cases check with
      | none => exact .inr (.inr ⟨hr, hp, rfl, by simpa [hp] using h⟩)
      | some c => exact .inr (.inl ⟨he, c, by simpa [hp, State.raise_first he] using h, .inr (.inr ⟨hb, hp, rfl⟩)⟩)
    · exact .inr (.inl ⟨he, .sequence, by simpa [hp, State.raise_first he] using h, .inr (.inl ⟨hb, hp, rfl⟩)⟩)

/-- Everything the issue of a datapath command can do (R120, R170). -/
theorem issueData_cases {i : Instr} {effect : Except FaultCode State} {s : State}
    {o : Host.Outcome State Fault Refusal} (h : issueData i effect s = o) :
    (s.err = true ∧ o = .next s) ∨
    (s.err = false ∧ s.busy = true ∧ o = .next (s.faultedWith .busyCollision (encode i))) ∨
    (s.ready = true ∧ ∃ c, effect = .error c ∧ o = .next (s.faultedWith c (encode i))) ∨
    (s.ready = true ∧ ∃ t, effect = .ok t ∧ o = .next t) := by
  rcases issueGuard_cases h with h | h | ⟨hr, h⟩
  · exact .inl h
  · exact .inr (.inl h)
  · have he : s.err = false := by simp_all [State.ready]
    cases effect with
    | ok t => exact .inr (.inr (.inr ⟨hr, t, rfl, h⟩))
    | error c => exact .inr (.inr (.inl ⟨hr, c, rfl, by simpa [State.raise_first he] using h⟩))

/-- Everything a completion can do (R121): nothing at an empty queue, else the head's effect. -/
theorem complete_cases {a : Answer} {s : State} {o : Host.Outcome State Fault Refusal} (h : complete a s = o) :
    (s.mq = [] ∧ o = .next s) ∨ ∃ u us, s.mq = u :: us ∧ completeOp u a { s with mq := us } = o := by
  unfold complete at h
  split at h
  · next hq => exact .inl ⟨hq, h.symm⟩
  · next u us hq => exact .inr ⟨u, us, hq, h⟩

/-- Everything a register read can do (R62): a value is received, and a faulting read also raises its fault. -/
theorem State.regRead_cases (s : State) (n : RegNum) :
    (∃ v, s.regView n = .value v ∧ s.regRead n = s.receive n v) ∨
    (s.regView n = .invalid ∧ s.regRead n = s.faultingRead .readInvalid n) ∨
    (s.regView n = .unassigned ∧ s.regRead n = s.faultingRead .badRegister n) := by
  unfold State.regRead
  cases h : s.regView n with
  | value v => exact .inl ⟨v, rfl, rfl⟩
  | invalid => exact .inr (.inl ⟨rfl, rfl⟩)
  | unassigned => exact .inr (.inr ⟨rfl, rfl⟩)

/-- Everything the issue of a word can do (R120). -/
theorem issue_cases (w : Word) (s : State) :
    (∃ i, decode w = .ok i ∧ issue w s = exec i s) ∨
    (∃ e, decode w = .error e ∧ issue w s = issueIllegal w s) := by
  unfold issue
  cases decode w with
  | ok i => exact .inl ⟨i, rfl, rfl⟩
  | error e => exact .inr ⟨e, rfl, rfl⟩

/-- Everything a step can do (R72): no agent is due, or one of them takes its step. -/
theorem step_cases (s : State) :
    (s.turns = [] ∧ step s = .next s) ∨
    (∃ ts, s.turns = .host :: ts ∧ step s = hostTurn { s with turns := ts }) ∨
    (∃ a ts, s.turns = .bus a :: ts ∧ step s = complete a { s with turns := ts }) ∨
    (∃ ts, s.turns = .reset :: ts ∧ step s = .next (State.resetBlock { s with turns := ts })) := by
  unfold step
  cases h : s.turns with
  | nil => exact .inl ⟨rfl, rfl⟩
  | cons t ts =>
    cases t with
    | host => exact .inr (.inl ⟨ts, rfl, rfl⟩)
    | bus a => exact .inr (.inr (.inl ⟨a, ts, rfl, rfl⟩))
    | reset => exact .inr (.inr (.inr ⟨ts, rfl, rfl⟩))

/-- A receive of n bytes takes 2n micro-ops (R151). -/
theorem receiveOps_length (n : Nat) : (receiveOps n).length = 2 * n := by
  induction n using receiveOps.induct with
  | case1 => rfl
  | case2 => rfl
  | case3 n ih => simp only [receiveOps, List.length_cons, ih]; omega

/-- RDBLK of count n queues 5 + 2n + 1 micro-ops (R22). -/
theorem rdblkOps_length (reg : Byte) (n : Nat) : (rdblkOps reg n).length = 6 + 2 * n := by
  simp only [rdblkOps, List.length_append, List.length_cons, List.length_nil, receiveOps_length]; omega

end Sys2Proof.Machine
end

