-- ==== Sys2Proof/Laws/Exec.lean ====
section
/-! SUPPORT. Everything the issue of a command can do, said once for all fourteen. -/

namespace Sys2Proof.Machine

/-- What an accepted command leaves: the bus commands fill the queue, each datapath command writes its own registers. -/
inductive Effect : Instr → State → State → Prop where
  | start {s : State} : s.phase = .idle → Effect .start s { s with mq := [.uStart] }
  | restart {s : State} : s.phase = .mtx ∨ s.phase = .mrxEnd → Effect .restart s { s with mq := [.uRestart] }
  | stop {s : State} : s.phase = .mtx ∨ s.phase = .mrxEnd → Effect .stop s { s with mq := [.uStop] }
  | write {s : State} (b : Byte) : s.phase = .addr ∨ s.phase = .mtx → Effect (.write b) s { s with mq := [.uWrite b] }
  | read {s : State} : s.phase = .mrx → s.bufPtr ≠ 22 → Effect .read s { s with mq := [.uRead] }
  | ack {s : State} : s.phase = .mrxAck → Effect .ack s { s with mq := [.uAck] }
  | nack {s : State} : s.phase = .mrxAck → Effect .nack s { s with mq := [.uNack] }
  | wrreg {s : State} (reg val : Byte) :
      s.phase = .idle → Effect (.wrreg reg val) s { s with mq := wrregOps reg val }
  | rdblk {s : State} (reg count : Byte) : s.phase = .idle → 1 ≤ count.toNat → count.toNat ≤ Config.bufCap →
      Effect (.rdblk reg count) s { s with mq := rdblkOps reg count.toNat }
  | setoss {s : State} (oss : BitVec 2) : s.ossSet = false → s.up = none →
      Effect (.setoss oss) s { s with oss := oss, ossSet := true }
  | loadcal {s : State} {c : CalSet} : s.cal = none → s.buf.calSet = some c →
      Effect .loadcal s { s with cal := some c }
  | loadut {s : State} {v : BitVec 16} : s.buf.pair 0 = some v → Effect .loadut s { s with ut := some v }
  | loadup {s : State} {raw : BitVec 24} : s.buf.triple = some raw →
      Effect .loadup s { s with up := some (rawPressure s.oss raw) }
  | comp {s : State} {c : CalSet} {ut : BitVec 16} {up : BitVec 19} {r : Reading} :
      s.cal = some c → s.ut = some ut → s.up = some up → compensate (compInput c ut up s.oss) = some r →
      Effect .comp s { s with result := some r }

/-- The codes a command can fault with (R230). -/
def commandFaults : List FaultCode :=
  [.busyCollision, .sequence, .countRange, .bufferOverflow, .unwritten, .configLocked, .divZero]

/-- A command's outcome: ignored after a fault, a first fault with the command's word, or its effect. -/
inductive Issued (i : Instr) (s : State) : State → Prop where
  | ignored : s.err = true → Issued i s s
  | faulted {c : FaultCode} : s.err = false → c ∈ commandFaults → Issued i s (s.faultedWith c (encode i))
  | effect {t : State} : s.ready = true → Effect i s t → Issued i s t

/-- A bus command's outcome, given what its acceptance means. -/
theorem issued_bus {i : Instr} {check : Option FaultCode} {ops : List MicroOp} {s : State}
    (hc : ∀ c, check = some c → c ∈ commandFaults)
    (he : s.phase ∈ legalPhases i → check = none → Effect i s { s with mq := ops }) :
    ∃ t, issueBus i check ops s = .next t ∧ Issued i s t := by
  rcases issueBus_cases (rfl : issueBus i check ops s = _) with ⟨h, ho⟩ | ⟨h, c, ho, hcode⟩ | ⟨hr, hp, hn, ho⟩
  · exact ⟨_, ho, .ignored h⟩
  · refine ⟨_, ho, .faulted h ?_⟩
    rcases hcode with ⟨_, rfl⟩ | ⟨_, _, rfl⟩ | ⟨_, _, hcheck⟩
    · decide
    · decide
    · exact hc c hcheck
  · exact ⟨_, ho, .effect hr (he hp hn)⟩

/-- A datapath command's outcome, given what its checks and its acceptance mean. -/
theorem issued_data {i : Instr} {effect : Except FaultCode State} {s : State}
    (hc : ∀ c, effect = .error c → c ∈ commandFaults) (he : ∀ t, effect = .ok t → Effect i s t) :
    ∃ t, issueData i effect s = .next t ∧ Issued i s t := by
  rcases issueData_cases (rfl : issueData i effect s = _) with ⟨h, ho⟩ | ⟨h, _, ho⟩ | ⟨hr, c, hcode, ho⟩ | ⟨hr, t, ht, ho⟩
  · exact ⟨_, ho, .ignored h⟩
  · exact ⟨_, ho, .faulted h (by decide)⟩
  · exact ⟨_, ho, .faulted (by simp_all [State.ready]) (hc c hcode)⟩
  · exact ⟨_, ho, .effect hr (he t ht)⟩

/-- Every command goes on, and its outcome is one of the three (R120). -/
theorem exec_cases (i : Instr) (s : State) : ∃ t, exec i s = .next t ∧ Issued i s t := by
  cases i with
  | start => exact issued_bus (check := none) (by simp) fun hp _ => .start (by simpa [legalPhases] using hp)
  | restart => exact issued_bus (check := none) (by simp) fun hp _ => .restart (by simpa [legalPhases] using hp)
  | stop => exact issued_bus (check := none) (by simp) fun hp _ => .stop (by simpa [legalPhases] using hp)
  | write b => exact issued_bus (check := none) (by simp) fun hp _ => .write b (by simpa [legalPhases] using hp)
  | read =>
    refine issued_bus (fun c hc => ?_) fun hp hn => .read (by simpa [legalPhases] using hp) ?_
    · split at hc <;> simp_all [commandFaults]
    · split at hn <;> simp_all
  | ack => exact issued_bus (check := none) (by simp) fun hp _ => .ack (by simpa [legalPhases] using hp)
  | nack => exact issued_bus (check := none) (by simp) fun hp _ => .nack (by simpa [legalPhases] using hp)
  | wrreg reg val => exact issued_bus (check := none) (by simp) fun hp _ => .wrreg reg val (by simpa [legalPhases] using hp)
  | rdblk reg count =>
    have hsplit : ∀ {o : Option FaultCode},
        (if count.toNat = 0 ∨ Config.bufCap < count.toNat then some FaultCode.countRange else none) = o →
        (o = some .countRange) ∨ (o = none ∧ 1 ≤ count.toNat ∧ count.toNat ≤ Config.bufCap) := by
      intro o h
      split at h
      · exact .inl h.symm
      · next hn => exact .inr ⟨h.symm, by omega, by omega⟩
    refine issued_bus (fun c hc => ?_) fun hp hn => ?_
    · rcases hsplit hc with h | ⟨h, _⟩ <;> simp_all [commandFaults]
    · rcases hsplit hn with h | ⟨_, h1, h2⟩
      · simp at h
      · exact .rdblk reg count (by simpa [legalPhases] using hp) h1 h2
  | setoss oss =>
    refine issued_data (fun c hc => ?_) fun t ht => ?_
    · split at hc <;> simp_all [commandFaults]
    · split at ht
      · simp at ht
      · next h =>
        simp only [State.upv, Bool.or_eq_true, not_or, Bool.not_eq_true, Option.isSome_eq_false_iff,
          Option.isNone_iff_eq_none] at h
        exact Except.ok.inj ht ▸ .setoss oss h.1 h.2
  | loadcal =>
    refine issued_data (fun c hc => ?_) fun t ht => ?_
    · split at hc
      · simp_all [commandFaults]
      · split at hc <;> simp_all [commandFaults]
    · split at ht
      · simp at ht
      · next h =>
        split at ht
        · simp at ht
        · next c hcal => exact Except.ok.inj ht ▸ .loadcal (by simpa [State.calv] using h) hcal
  | loadut =>
    refine issued_data (fun c hc => ?_) fun t ht => ?_
    · split at hc <;> simp_all [commandFaults]
    · split at ht
      · simp at ht
      · next v hv => exact Except.ok.inj ht ▸ .loadut hv
  | loadup =>
    refine issued_data (fun c hc => ?_) fun t ht => ?_
    · split at hc <;> simp_all [commandFaults]
    · split at ht
      · simp at ht
      · next raw hraw => exact Except.ok.inj ht ▸ .loadup hraw
  | comp =>
    refine issued_data (fun c hc => ?_) fun t ht => ?_
    · split at hc
      · split at hc <;> simp_all [commandFaults]
      · simp_all [commandFaults]
    · split at ht
      · next c ut up hcal hut hup =>
        split at ht
        · simp at ht
        · next r hr => exact Except.ok.inj ht ▸ .comp hcal hut hup hr
      · simp at ht

/-- Everything the issue of a word can do, whether it spells a command or not (R120). -/
theorem issue_goes_on (w : Word) (s : State) :
    ∃ t, issue w s = .next t ∧
      ((∃ i, decode w = .ok i ∧ Issued i s t) ∨
       (∃ e, decode w = .error e ∧
        ((s.err = true ∧ t = s) ∨ (s.err = false ∧ s.busy = true ∧ t = s.faultedWith .busyCollision w) ∨
         (s.ready = true ∧ t = s.faultedWith .illegalCommand w)))) := by
  rcases issue_cases w s with ⟨i, hi, ho⟩ | ⟨e, he, ho⟩
  · obtain ⟨t, ht, hd⟩ := exec_cases i s
    exact ⟨t, by rw [ho, ht], .inl ⟨i, hi, hd⟩⟩
  · rw [ho]
    rcases issueGuard_cases (rfl : issueIllegal w s = _) with ⟨h, hn⟩ | ⟨h, hb, hn⟩ | ⟨hr, hn⟩
    · exact ⟨_, hn, .inr ⟨e, he, .inl ⟨h, rfl⟩⟩⟩
    · exact ⟨_, hn, .inr ⟨e, he, .inr (.inl ⟨h, hb, rfl⟩)⟩⟩
    · have : s.err = false := by simp_all [State.ready]
      exact ⟨_, hn, .inr ⟨e, he, .inr (.inr ⟨hr, State.raise_first this _ _⟩)⟩⟩

end Sys2Proof.Machine
end

