-- ==== Sys2Proof/Laws/PerInstr.lean ====
section
/-! SUPPORT. Per command: the word it is encoded by is well formed (R92, R93). -/

namespace Sys2Proof.Laws.Spelling

/-- A command's word has an assigned opcode, and every must-be-zero bit of it is clear. -/
abbrev Statement (i : Instr) : Prop := wellFormedWord (encode i) = true

theorem start : Statement .start := by decide

theorem restart : Statement .restart := by decide

theorem stop : Statement .stop := by decide

theorem write (b : Byte) : Statement (.write b) := by
  simp [Statement, wellFormedWord, assignedOp, mustBeZeroHolds, encode, opField_commandWord, rsvField_commandWord,
    cntField_commandWord, regField_commandWord]

theorem read : Statement .read := by decide

theorem ack : Statement .ack := by decide

theorem nack : Statement .nack := by decide

theorem wrreg (reg val : Byte) : Statement (.wrreg reg val) := by
  simp [Statement, wellFormedWord, assignedOp, mustBeZeroHolds, encode, opField_commandWord, rsvField_commandWord,
    cntField_commandWord]

theorem rdblk (reg count : Byte) : Statement (.rdblk reg count) := by
  simp [Statement, wellFormedWord, assignedOp, mustBeZeroHolds, encode, opField_commandWord, rsvField_commandWord,
    dataField_commandWord]

theorem setoss (oss : BitVec 2) : Statement (.setoss oss) := by
  revert oss; decide

theorem loadcal : Statement .loadcal := by decide

theorem loadut : Statement .loadut := by decide

theorem loadup : Statement .loadup := by decide

theorem comp : Statement .comp := by decide

end Sys2Proof.Laws.Spelling
end

