-- ==== Sys2Proof/Laws/Runs.lean ====
section
/-! SUPPORT. No step looks at the turns to come, a finite beginning of an infinite run is a run of `steps`, what a host's turn
does, and how a run goes on and comes out. -/

namespace Sys2Proof.Machine

/-- An outcome with other turns to come in its next state. -/
def withTurns (ts : List Turn) : Host.Outcome State Fault Refusal → Host.Outcome State Fault Refusal
  | .next s    => .next { s with turns := ts }
  | .fault r   => .fault r
  | .refused r => .refused r

/-! No agent's step looks at the turns to come. -/

theorem raise_turns (s : State) (c : FaultCode) (w : Word) (ts : List Turn) :
    State.raise { s with turns := ts } c w = { s.raise c w with turns := ts } := by
  unfold State.raise; split <;> rfl

theorem issueGuard_turns (w : Word) (s b : State) (ts : List Turn) :
    issueGuard w { s with turns := ts } { b with turns := ts } = withTurns ts (issueGuard w s b) := by
  have he : ({ s with turns := ts } : State).err = s.err := rfl
  have hb : State.busy { s with turns := ts } = s.busy := rfl
  unfold issueGuard
  rw [raise_turns, he, hb]
  by_cases h : s.err = true <;> by_cases h' : s.busy = true <;> simp [h, h', withTurns]

theorem issueIllegal_turns (w : Word) (s : State) (ts : List Turn) :
    issueIllegal w { s with turns := ts } = withTurns ts (issueIllegal w s) := by
  unfold issueIllegal; rw [raise_turns, issueGuard_turns]

theorem issueBus_turns (i : Instr) (check : Option FaultCode) (ops : List MicroOp) (s : State) (ts : List Turn) :
    issueBus i check ops { s with turns := ts } = withTurns ts (issueBus i check ops s) := by
  unfold issueBus
  rw [← issueGuard_turns]
  congr 1
  split
  · cases check with
    | none => rfl
    | some c => exact raise_turns s c _ ts
  · exact raise_turns s _ _ ts

theorem issueData_turns (i : Instr) {e e' : Except FaultCode State} (s : State) (ts : List Turn)
    (h : e' = e.map fun t => { t with turns := ts }) :
    issueData i e' { s with turns := ts } = withTurns ts (issueData i e s) := by
  unfold issueData
  rw [← issueGuard_turns, h]
  congr 1
  cases e with
  | ok t => rfl
  | error c => exact raise_turns s c _ ts

theorem exec_turns (i : Instr) (s : State) (ts : List Turn) :
    exec i { s with turns := ts } = withTurns ts (exec i s) := by
  cases i with
  | setoss oss =>
    refine issueData_turns _ s ts ?_
    by_cases h : (s.ossSet || s.upv) = true
    · rw [if_pos h]; exact if_pos h
    · rw [if_neg h]; exact if_neg h
  | loadcal =>
    refine issueData_turns _ s ts ?_
    by_cases h : s.calv = true
    · rw [if_pos h]; exact if_pos h
    · rw [if_neg h]
      refine (if_neg h).trans ?_
      dsimp only
      cases s.buf.calSet <;> rfl
  | loadut => exact issueData_turns _ s ts (by dsimp only; cases s.buf.pair 0 <;> rfl)
  | loadup => exact issueData_turns _ s ts (by dsimp only; cases s.buf.triple <;> rfl)
  | comp =>
    refine issueData_turns _ s ts ?_
    dsimp only
    rcases s.cal with _ | c <;> rcases s.ut with _ | ut <;> rcases s.up with _ | up <;> try rfl
    dsimp only
    cases compensate (compInput c ut up s.oss) <;> rfl
  | start => exact issueBus_turns .start none [.uStart] s ts
  | restart => exact issueBus_turns .restart none [.uRestart] s ts
  | stop => exact issueBus_turns .stop none [.uStop] s ts
  | write b => exact issueBus_turns (.write b) none [.uWrite b] s ts
  | read => exact issueBus_turns .read _ [.uRead] s ts
  | ack => exact issueBus_turns .ack none [.uAck] s ts
  | nack => exact issueBus_turns .nack none [.uNack] s ts
  | wrreg reg val => exact issueBus_turns (.wrreg reg val) none _ s ts
  | rdblk reg count => exact issueBus_turns (.rdblk reg count) _ _ s ts

theorem issue_turns (w : Word) (s : State) (ts : List Turn) :
    issue w { s with turns := ts } = withTurns ts (issue w s) := by
  unfold issue
  split
  · exact exec_turns _ s ts
  · exact issueIllegal_turns w s ts

theorem regRead_turns (s : State) (n : RegNum) (ts : List Turn) :
    State.regRead { s with turns := ts } n = { s.regRead n with turns := ts } := by
  have hv : State.regView { s with turns := ts } n = s.regView n := rfl
  unfold State.regRead
  rw [hv]
  split
  · rfl
  · simp only [State.faultingRead, raise_turns]; rfl
  · simp only [State.faultingRead, raise_turns]; rfl

theorem complete_turns (a : Answer) (s : State) (ts : List Turn) :
    complete a { s with turns := ts } = withTurns ts (complete a s) := by
  unfold complete
  dsimp only
  split
  · rfl
  · next u us _ =>
    cases u with
    | uWrite b => cases h : a.ack <;> simp only [completeOp, h] <;> rfl
    | uRead => simp only [completeOp, completeRead]; split <;> rfl
    | uStart => rfl
    | uRestart => rfl
    | uStop => rfl
    | uAck => rfl
    | uNack => rfl

theorem hostTurn_turns (s : State) (ts : List Turn) :
    hostTurn { s with turns := ts } = withTurns ts (hostTurn s) := by
  unfold hostTurn
  dsimp only
  split
  · rfl
  · next n v p _ =>
    unfold regWrite
    split
    · exact issue_turns v { s with host := p } ts
    · exact congrArg _ (raise_turns { s with host := p } _ _ ts)
  · next n p _ => exact congrArg _ (regRead_turns { s with host := p } n ts)
  · next p _ =>
    have hb : State.busy { s with turns := ts } = s.busy := rfl
    rw [hb]
    cases s.busy with
    | false => exact congrArg _ (regRead_turns { s with host := p } regStatus ts)
    | true => exact congrArg _ (regRead_turns s regStatus ts)
  · rfl
  · rfl

/-- A step takes the turn that is due and does the same whatever turns come after it. -/
theorem step_turns (t : Turn) (s : State) (ts : List Turn) :
    step { s with turns := t :: ts } = withTurns ts (step (s.due (some t))) := by
  cases t with
  | host => exact hostTurn_turns { s with turns := [] } ts
  | bus a => exact complete_turns a { s with turns := [] } ts
  | reset => rfl

/-- What the issue of a command does to the phase, the host's program and a queue that is not empty. -/
theorem Issued.keeps {i : Instr} {s t : State} (h : Issued i s t) :
    t.phase = s.phase ∧ t.host = s.host ∧ (s.mq ≠ [] → t.mq = s.mq) := by
  cases h with
  | ignored => simp
  | faulted => simp
  | effect hr he =>
    have := (State.ready_iff.1 hr).2.1
    cases he <;> simp_all

/-- A register read touches neither the queue nor the phase nor the host's program. -/
theorem State.regRead_keeps (s : State) (n : RegNum) :
    (s.regRead n).mq = s.mq ∧ (s.regRead n).phase = s.phase ∧ (s.regRead n).host = s.host := by
  rcases s.regRead_cases n with ⟨v, _, h⟩ | ⟨_, h⟩ | ⟨_, h⟩ <;> rw [h] <;> simp [State.faultingRead]

/-- No completion touches the host's program. -/
theorem completeOp_host {u : MicroOp} {a : Answer} {s t : State} (h : completeOp u a s = .next t) : t.host = s.host := by
  cases u with
  | uWrite b => simp only [completeOp] at h; cases h; unfold completeWrite; cases a.ack <;> rfl
  | uRead =>
    simp only [completeOp, completeRead] at h
    split at h
    · cases h; rfl
    · cases h
  | _ => simp only [completeOp] at h; cases h; rfl

/-- A host's turn goes on: the phase stays or becomes IDLE by a reset, a queue that is not empty stays or is dropped by a
reset, and the host's action is taken, unless there is none or it is a POLL that reads BUSY = 1. -/
theorem hostTurn_goes_on (s : State) : ∃ t, hostTurn s = .next t ∧
    (t.phase = s.phase ∨ t.phase = .idle) ∧ (s.mq ≠ [] → t.mq = s.mq ∨ t.mq = []) ∧
    ((s.host = [] ∧ t = s) ∨ (t.host = s.host ∧ s.busy = true) ∨ ∃ x, s.host = x :: t.host) := by
  unfold hostTurn
  split
  · next hh => exact ⟨_, rfl, .inl rfl, fun _ => .inl rfl, .inl ⟨hh, rfl⟩⟩
  · next n v p hh =>
    unfold regWrite
    split
    · obtain ⟨u, hu, hc⟩ := issue_goes_on v { s with host := p }
      refine ⟨u, hu, ?_⟩
      rcases hc with ⟨i, _, hi⟩ | ⟨e, _, ⟨_, rfl⟩ | ⟨_, _, rfl⟩ | ⟨_, rfl⟩⟩
      · exact ⟨.inl hi.keeps.1, fun h => .inl (hi.keeps.2.2 h), .inr (.inr ⟨_, by rw [hi.keeps.2.1]; exact hh⟩)⟩
      all_goals exact ⟨.inl rfl, fun _ => .inl rfl, .inr (.inr ⟨_, hh⟩)⟩
    · exact ⟨_, rfl, .inl (by simp), fun _ => .inl (by simp), .inr (.inr ⟨_, by simpa using hh⟩)⟩
  · next n p hh =>
    obtain ⟨a, b, c⟩ := State.regRead_keeps { s with host := p } n
    exact ⟨_, rfl, .inl b, fun _ => .inl a, .inr (.inr ⟨_, by rw [c]; exact hh⟩)⟩
  · next p hh =>
    cases hb : s.busy with
    | true =>
      obtain ⟨a, b, c⟩ := s.regRead_keeps regStatus
      exact ⟨_, rfl, .inl b, fun _ => .inl a, .inr (.inl ⟨c, rfl⟩)⟩
    | false =>
      obtain ⟨a, b, c⟩ := State.regRead_keeps { s with host := p } regStatus
      exact ⟨_, rfl, .inl b, fun _ => .inl a, .inr (.inr ⟨.poll, by rw [if_neg (by simp), c]; exact hh⟩)⟩
  · next hh => exact ⟨_, rfl, .inl rfl, fun _ => .inl rfl, .inr (.inr ⟨_, hh⟩)⟩
  · next hh => exact ⟨_, rfl, .inr rfl, fun _ => .inr rfl, .inr (.inr ⟨_, hh⟩)⟩

/-- A step of a run leaves no turn behind: the next one is given by the run. -/
theorem IsRun.turns_nil {turnAt : Nat → Option Turn} {r : Nat → State} (h : IsRun turnAt r) (k : Nat) :
    (r (k + 1)).turns = [] := by
  have hs := h.moves k
  cases ht : turnAt k with
  | none =>
    rw [ht] at hs
    exact (congrArg State.turns (Host.Outcome.next.inj hs)).symm
  | some t =>
    have h2 := step_turns t (r k) []
    have hd : ({ r k with turns := [t] } : State) = (r k).due (some t) := rfl
    rw [ht] at hs
    rw [hd, hs] at h2
    exact congrArg State.turns (Host.Outcome.next.inj h2)

/-- A run goes on from where its beginning stopped. -/
theorem steps_add {n : Nat} {s t : State} (h : steps n s = .next t) (m : Nat) : steps (n + m) s = steps m t := by
  induction n generalizing s with
  | zero => cases h; rw [Nat.zero_add]
  | succ n ih =>
    rw [Nat.add_right_comm]
    simp only [steps] at h ⊢
    cases hs : step s with
    | next u => rw [hs] at h; exact ih h
    | fault r => rw [hs] at h; cases h
    | refused r => rw [hs] at h; cases h

/-- The turns of the first k steps of a run; where no agent moves there is none. -/
def turnsUpTo (turnAt : Nat → Option Turn) (k : Nat) : List Turn := (List.range k).flatMap fun i => (turnAt i).toList

/-- A finite beginning of a run is a run of `steps` over its turns. -/
theorem IsRun.steps_turnsUpTo {turnAt : Nat → Option Turn} {r : Nat → State} (h : IsRun turnAt r) (k : Nat)
    (ts : List Turn) :
    steps (turnsUpTo turnAt k).length { r 0 with turns := turnsUpTo turnAt k ++ ts } = .next { r k with turns := ts } := by
  induction k generalizing ts with
  | zero => rfl
  | succ k ih =>
    have hs := h.moves k
    have hu : turnsUpTo turnAt (k + 1) = turnsUpTo turnAt k ++ (turnAt k).toList := by
      simp [turnsUpTo, List.range_succ]
    rw [hu, List.length_append, List.append_assoc, steps_add (ih _)]
    cases ht : turnAt k with
    | none =>
      rw [ht] at hs
      rw [← Host.Outcome.next.inj hs]
      rfl
    | some t =>
      have h1 := step_turns t (r k) ts
      rw [ht] at hs
      rw [hs] at h1
      simp only [Option.toList, List.length_singleton, List.singleton_append, steps, h1, withTurns]

/-- Outside a transaction, while the host has an action left, the turn is the host's or a reset. -/
theorem IsRun.turn_outside {turnAt : Nat → Option Turn} {r : Nat → State} (h : IsRun turnAt r) {k : Nat}
    (ht : (r k).inTransaction = false) (hh : (r k).host ≠ []) : turnAt k = some .host ∨ turnAt k = some .reset := by
  have ha := h.allowed k
  cases htk : turnAt k with
  | none => rw [htk] at ha; simp [State.allows, ht, hh] at ha
  | some t =>
    rw [htk] at ha
    cases t with
    | host => exact .inl rfl
    | reset => exact .inr rfl
    | bus a =>
      have hq : (r k).mq ≠ [] := by simpa [State.allows] using ha
      simp [State.inTransaction, State.busy, hq] at ht

/-- A reset turn of a run resets the block and keeps the host's program. -/
theorem IsRun.reset_turn {turnAt : Nat → Option Turn} {r : Nat → State} (h : IsRun turnAt r) {k : Nat}
    (hk : turnAt k = some .reset) : r (k + 1) = State.resetBlock { r k with turns := [] } := by
  have hs := h.moves k
  rw [hk] at hs
  exact (Host.Outcome.next.inj hs).symm

/-- Outside a transaction a host with an action left later gets its turn. This is no premise: R72 has no step in which no
agent moves. -/
theorem IsRun.host_goes_on {turnAt : Nat → Option Turn} {r : Nat → State} (h : IsRun turnAt r) {k : Nat}
    (ht : (r k).inTransaction = false) (hh : (r k).host ≠ []) :
    ∃ m, k ≤ m ∧ turnAt m = some .host ∧ (r m).host = (r k).host := by
  obtain ⟨m, hm, hn⟩ := h.notResetsOnly k
  obtain ⟨d, rfl⟩ := Nat.exists_eq_add_of_le hm
  induction d generalizing k with
  | zero => exact ⟨k, le_rfl, (h.turn_outside ht hh).resolve_right hn, rfl⟩
  | succ d ih =>
    rcases h.turn_outside ht hh with hk | hk
    · exact ⟨k, le_rfl, hk, rfl⟩
    · have hr := h.reset_turn hk
      have hhost : (r (k + 1)).host = (r k).host := by rw [hr]; rfl
      obtain ⟨m, hm, hturn, heq⟩ := ih (k := k + 1) (by rw [hr]; rfl) (by rw [hhost]; exact hh) (by omega)
        (by rw [show k + 1 + d = k + (d + 1) by omega]; exact hn)
      exact ⟨m, by omega, hturn, heq.trans hhost⟩

/-- Once the host's program is over, it stays over, and an empty queue stays empty. -/
theorem IsRun.rests {turnAt : Nat → Option Turn} {r : Nat → State} (h : IsRun turnAt r) {k m : Nat} (hkm : k ≤ m)
    (hh : (r k).host = []) : (r m).host = [] ∧ ((r k).mq = [] → (r m).mq = []) := by
  induction m, hkm using Nat.le_induction with
  | base => exact ⟨hh, id⟩
  | succ m hm ih =>
    have hs := h.moves m
    have ha := h.allowed m
    cases htm : turnAt m with
    | none => rw [htm] at hs; rw [← Host.Outcome.next.inj hs]; exact ih
    | some t =>
      rw [htm] at hs ha
      cases t with
      | host => simp [State.allows, ih.1] at ha
      | reset => rw [h.reset_turn htm]; exact ⟨ih.1, fun _ => rfl⟩
      | bus a =>
        refine ⟨?_, fun hq => ?_⟩
        · rcases complete_cases hs with ⟨_, ho⟩ | ⟨u, us, _, ho⟩
          · rw [Host.Outcome.next.inj ho]; exact ih.1
          · rw [completeOp_host ho]; exact ih.1
        · simp [State.allows, ih.2 hq] at ha

/-- Every run ends, faults or hangs (R12, R269). -/
theorem IsRun.outcome {turnAt : Nat → Option Turn} {r : Nat → State} (h : IsRun turnAt r) :
    RunEnds r ∨ RunFaults r ∨ RunHangs r := by
  by_contra hno
  simp only [RunHangs, not_or, not_exists, not_forall, Bool.not_eq_true, not_not] at hno
  obtain ⟨hend, hfault, hhang⟩ := hno
  obtain ⟨k, _, hk⟩ := (hhang 0).2.2
  obtain ⟨m, hm, hq⟩ := (hhang k).2.1
  obtain ⟨n, hn, hp⟩ := (hhang m).1
  have hh := (h.rests (hm.trans hn) hk).1
  have hq : (r n).mq = [] := (h.rests hn (h.rests hm hk).1).2 (by simpa [State.isPending] using hq)
  have hp : (r n).phase ≠ .hung := by simpa [State.isHung] using hp
  refine hend ⟨n, ?_⟩
  have he : (r n).err = false := by
    by_contra he
    exact hfault ⟨n, by simpa [State.hasFaulted] using he⟩
  simp [State.ended, hh, he, hp, State.busy_eq_false.2 ⟨hq, hp⟩]

end Sys2Proof.Machine
end

