-- ==== Sys2Proof/Laws/Scratch.lean ====
section
/-! SUPPORT. The laws of the scratch buffer: read after write, and that every operation keeps the canonical form. -/

namespace Sys2Proof.Machine

@[simp] theorem Memory.read_nil (a : Nat) : Memory.read [] a = none := rfl

@[simp] theorem Memory.read_clear (a : Nat) : Memory.clear.read a = none := rfl

theorem Memory.read_write_same (m : Memory) (a : Nat) (v : Byte) : (m.write a v).read a = some v := by
  induction m with
  | nil => simp [Memory.write, Memory.read]
  | cons c rest ih =>
    obtain ⟨b, w⟩ := c
    unfold Memory.write
    split
    · simp [Memory.read]
    · split
      · simp [Memory.read]
      · next h => simpa [Memory.read, h] using ih

theorem Memory.read_write_other (m : Memory) {a c : Nat} (v : Byte) (h : c ≠ a) : (m.write a v).read c = m.read c := by
  induction m with
  | nil => simp [Memory.write, Memory.read, h]
  | cons d rest ih =>
    obtain ⟨b, w⟩ := d
    unfold Memory.write
    split
    · simp [Memory.read, h]
    · split
      · next hab => subst hab; simp [Memory.read, h]
      · simp [Memory.read, ih]

/-- The canonical form: the indexes rise strictly and stay below the capacity. -/
theorem Memory.wf_iff (m : Memory) :
    m.wf = true ↔ (m.map Prod.fst).Pairwise (· < ·) ∧ ∀ a ∈ m.map Prod.fst, a < Config.bufCap := by
  induction m with
  | nil => simp [Memory.wf]
  | cons c rest ih =>
    obtain ⟨a, v⟩ := c
    cases rest with
    | nil => simp [Memory.wf]
    | cons d rest =>
      obtain ⟨b, w⟩ := d
      simp only [Memory.wf, Bool.and_eq_true, decide_eq_true_eq, ih, List.map_cons, List.pairwise_cons, List.mem_cons,
        forall_eq_or_imp]
      constructor
      · rintro ⟨hab, ⟨hb, hr⟩, hbc, hrc⟩
        exact ⟨⟨⟨hab, fun x hx => hab.trans (hb x hx)⟩, hb, hr⟩, hab.trans hbc, hbc, hrc⟩
      · rintro ⟨⟨⟨hab, -⟩, hb, hr⟩, -, hbc, hrc⟩
        exact ⟨hab, ⟨hb, hr⟩, hbc, hrc⟩

/-- The indexes after a write are those before it and the written one. -/
theorem Memory.mem_write (m : Memory) (a : Nat) (v : Byte) {x : Nat} :
    x ∈ (m.write a v).map Prod.fst ↔ x = a ∨ x ∈ m.map Prod.fst := by
  induction m with
  | nil => simp [Memory.write]
  | cons c rest ih =>
    obtain ⟨b, w⟩ := c
    unfold Memory.write
    split
    · simp
    · split
      · next hab => subst hab; simp
      · simp only [List.map_cons, List.mem_cons, ih]; tauto

theorem Memory.wf_clear : Memory.clear.wf = true := rfl

/-- A write below the capacity keeps the canonical form. -/
theorem Memory.wf_write {m : Memory} (h : m.wf = true) {a : Nat} (ha : a < Config.bufCap) (v : Byte) :
    (m.write a v).wf = true := by
  rw [Memory.wf_iff] at h ⊢
  refine ⟨?_, fun x hx => ?_⟩
  · obtain ⟨hp, -⟩ := h
    induction m with
    | nil => simp [Memory.write]
    | cons c rest ih =>
      obtain ⟨b, w⟩ := c
      simp only [List.map_cons, List.pairwise_cons] at hp
      unfold Memory.write
      split
      · next hab =>
        simp only [List.map_cons, List.pairwise_cons, List.mem_cons, forall_eq_or_imp]
        exact ⟨⟨hab, fun x hx => hab.trans (hp.1 x hx)⟩, hp⟩
      · split
        · next hab => subst hab; simpa using hp
        · next hlt hne =>
          simp only [List.map_cons, List.pairwise_cons]
          refine ⟨fun x hx => ?_, ih hp.2⟩
          rcases (Memory.mem_write rest a v).1 hx with rfl | hx
          · omega
          · exact hp.1 x hx
  · rcases (Memory.mem_write m a v).1 hx with rfl | hx
    · exact ha
    · exact h.2 x hx

/-- A write beyond every listed index adds it at the end. -/
theorem Memory.write_append (m : Memory) {a : Nat} (h : ∀ x ∈ m.map Prod.fst, x < a) (v : Byte) :
    m.write a v = m ++ [(a, v)] := by
  induction m with
  | nil => rfl
  | cons c rest ih =>
    obtain ⟨b, w⟩ := c
    simp only [List.map_cons, List.mem_cons, forall_eq_or_imp] at h
    have hb : ¬ a < b := by omega
    have hne : a ≠ b := by omega
    simp [Memory.write, hb, hne, ih h.2]

end Sys2Proof.Machine
end

