-- ==== Sys2Proof/Tests/Slice0.lean ====
section
/-! SUPPORT. The model's own tests, each with the place of the spec its expected value comes from, and for every statement
with hypotheses a witness that meets them. -/

namespace Sys2Proof.Tests

open Sys2Proof.Machine

/-! ## States to test on -/

/-- The reset state but for its phase. -/
def inPhase (ph : Phase) : State := { State.reset with phase := ph }

/-- A WRREG has been issued and nothing completed. -/
def busyState : State := { State.reset with mq := wrregOps 0xF4 0x2E }

/-- The calibration bytes of L1.1. -/
def sampleBytes : List Byte :=
  [0x01, 0x98, 0xFF, 0xB8, 0xC7, 0xD1, 0x7F, 0xE5, 0x7F, 0xF5, 0x5A]
    ++ [0x71, 0x18, 0x2E, 0x00, 0x04, 0x80, 0x00, 0xDD, 0xF9, 0x0B, 0x34]

/-- The i-th calibration byte. -/
def sampleByte (i : Nat) : Byte := sampleBytes.getD i 0

/-- The calibration of L1.1. -/
def sampleCal : CalSet where
  ac1 := 408
  ac2 := -72
  ac3 := -14383
  ac4 := 32741
  ac5 := 32757
  ac6 := 23153
  b1  := 6190
  b2  := 4
  mb  := -32768
  mc  := -8711
  md  := 2868

/-- The scratch buffer after a read of bytes. -/
def received (bs : List Byte) : Memory := (List.range bs.length).zip bs

/-- A state with the scratch bytes of a completed read. -/
def withBytes (bs : List Byte) : State :=
  { State.reset with buf := received bs, bufPtr := BitVec.ofNat 5 bs.length }

/-- Every input of a COMP is loaded. -/
def loaded : State := { State.reset with cal := some sampleCal, ut := some 27898, up := some 23843 }

/-- The answer of a peripheral that acknowledges and sends a byte. -/
def acks (b : Byte) : Answer := ⟨.ack, b⟩

/-- STATUS after an outcome. -/
def statusAfter (o : Host.Outcome State Fault Refusal) : Option Word := (nextOf o).map State.status

/-- The state in which the host is to take these actions now. -/
def hostDoes (s : State) (p : List HostAction) : State := s.load p [.host]

/-! ## Encoding: L2.1 and R100 -/

theorem test_decode_framing :
    decode 0x10000000 = .ok .start ∧ decode 0x20000000 = .ok .restart ∧ decode 0x30000000 = .ok .stop ∧
    decode 0x400000EE = .ok (.write 0xEE) ∧ decode 0x40000000 = .ok (.write 0x00) ∧ decode 0x50000000 = .ok .read ∧
    decode 0x60000000 = .ok .ack ∧ decode 0x70000000 = .ok .nack := ⟨rfl, rfl, rfl, rfl, rfl, rfl, rfl, rfl⟩

theorem test_decode_composites :
    decode 0x8000F42E = .ok (.wrreg 0xF4 0x2E) ∧ decode 0x9016AA00 = .ok (.rdblk 0xAA 22) ∧
    decode 0x9000AA00 = .ok (.rdblk 0xAA 0) ∧ decode 0x90FFF600 = .ok (.rdblk 0xF6 255) := ⟨rfl, rfl, rfl, rfl⟩

theorem test_decode_datapath :
    decode 0xA0000002 = .ok (.setoss 2) ∧ decode 0xB0000000 = .ok .loadcal ∧ decode 0xC0000000 = .ok .loadut ∧
    decode 0xD0000000 = .ok .loadup ∧ decode 0xE0000000 = .ok .comp := ⟨rfl, rfl, rfl, rfl, rfl⟩

theorem test_decode_unassigned :
    decode 0x00000000 = .error .unassignedOpcode ∧ decode 0xFFFFFFFF = .error .unassignedOpcode ∧
    decode 0xF0000000 = .error .unassignedOpcode := ⟨rfl, rfl, rfl⟩

theorem test_decode_must_be_zero :
    decode 0x10000001 = .error .mustBeZeroBit ∧ decode 0x11000000 = .error .mustBeZeroBit ∧
    decode 0x400100EE = .error .mustBeZeroBit ∧ decode 0x4000AAEE = .error .mustBeZeroBit ∧
    decode 0x8001F42E = .error .mustBeZeroBit ∧ decode 0x9016AA01 = .error .mustBeZeroBit ∧
    decode 0x9116AA00 = .error .mustBeZeroBit ∧ decode 0xA0000004 = .error .mustBeZeroBit ∧
    decode 0xE0000001 = .error .mustBeZeroBit := ⟨rfl, rfl, rfl, rfl, rfl, rfl, rfl, rfl, rfl⟩

theorem test_encode_examples :
    encode (.write 0xEF) = 0x400000EF ∧ encode (.wrreg 0xF4 0x34) = 0x8000F434 ∧ encode (.rdblk 0xF6 3) = 0x9003F600 ∧
    encode (.setoss 3) = 0xA0000003 ∧ encode .comp = 0xE0000000 := by decide

theorem test_table_word : decodeTableWord 32 0x9002F600 = some (.rdblk 0xF6 2) := by decide

/-! ## Well-formedness: an ill-formed word or operand for each check (R93, R95, R98) -/

theorem smoke_assigned_opcode : wellFormedWord 0x00000000 = false ∧ wellFormedWord 0xF0000000 = false := by decide

theorem smoke_reserved_field : wellFormedWord 0x11000000 = false ∧ wellFormedWord 0x9116AA00 = false := by decide

theorem smoke_write_unused_fields : wellFormedWord 0x400100EE = false ∧ wellFormedWord 0x4000AAEE = false := by decide

theorem smoke_wrreg_count : wellFormedWord 0x8001F42E = false := by decide

theorem smoke_rdblk_data : wellFormedWord 0x9016AA01 = false := by decide

theorem smoke_setoss_fields :
    wellFormedWord 0xA0010000 = false ∧ wellFormedWord 0xA0000100 = false ∧ wellFormedWord 0xA0000004 = false := by decide

theorem smoke_no_operand_fields :
    wellFormedWord 0x10010000 = false ∧ wellFormedWord 0x10000100 = false ∧ wellFormedWord 0xE0000001 = false := by decide

/-- `WRITE 256` and `SETOSS 4` are assembly errors (L2.1). -/
theorem smoke_operand_ranges :
    writeOf 256 = none ∧ wrregOf 256 0 = none ∧ wrregOf 0 256 = none ∧ rdblkOf 256 1 = none ∧ rdblkOf 0 256 = none ∧
    setossOf 4 = none := by decide

theorem smoke_operands_that_fit :
    writeOf 255 = some (.write 0xFF) ∧ rdblkOf 0xAA 23 = some (.rdblk 0xAA 23) ∧ setossOf 3 = some (.setoss 3) := by decide

/-! ## Issue and fault priority: L2.2 -/

theorem test_restart_in_idle : statusAfter (exec .restart State.reset) = some 0x00030002 := by decide

theorem test_stop_in_idle : statusAfter (exec .stop State.reset) = some 0x00030002 := by decide

theorem test_write_in_idle : statusAfter (exec (.write 0xEE) State.reset) = some 0x00030002 := by decide

theorem test_rdblk_count :
    statusAfter (exec (.rdblk 0xAA 0) State.reset) = some 0x00040002 ∧
    statusAfter (exec (.rdblk 0xAA 23) State.reset) = some 0x00040002 := by decide

theorem test_collision_before_illegal : statusAfter (issue 0x00000000 busyState) = some 0x00020003 := by decide

theorem test_sequence_before_count : statusAfter (issue 0x9000AA00 (inPhase .addr)) = some 0x00030102 := by decide

theorem test_locked_before_unwritten :
    statusAfter (exec .loadcal { State.reset with cal := some sampleCal }) = some 0x0007000A := by decide

/-! ## Framing: L2.3 -/

theorem test_start : (nextOf (exec .start State.reset)).map (·.mq) = some [.uStart] := by decide

theorem test_start_in_mtx : statusAfter (exec .start (inPhase .mtx)) = some 0x00030202 := by decide

theorem test_start_completes :
    (nextOf (complete (acks 0) { withBytes [1, 2] with mq := [.uStart] })).map (fun s => (s.trace, s.phase, s.bufPtr, s.buf))
      = some ([.S], .addr, 0, []) := by decide

theorem test_restart_keeps_bytes :
    (nextOf (complete (acks 0) { withBytes [1, 2] with phase := .mrxEnd, mq := [.uRestart] })).map
      (fun s => (s.trace, s.phase, s.bufPtr, s.buf)) = some ([.Sr], .addr, 2, [(0, 1), (1, 2)]) := by decide

theorem test_stop_completes :
    (nextOf (complete (acks 0) { inPhase .mrxEnd with mq := [.uStop] })).map (fun s => (s.trace, s.phase))
      = some ([.P], .idle) := by decide

/-- The address byte 0x77 is not checked, and its bit 0 selects the read direction (D12). -/
theorem test_write_direction :
    (nextOf (complete (acks 0) { inPhase .addr with mq := [.uWrite 0x77] })).map (fun s => (s.trace, s.phase))
      = some ([.W 0x77 .ack], .mrx) := by decide

theorem test_write_nacked :
    statusAfter (complete ⟨.nack, 0⟩ { inPhase .addr with mq := [.uWrite 0xEE] }) = some 0x00000605 := by decide

theorem test_read_completes :
    (nextOf (complete (acks 0x6C) { inPhase .mrx with mq := [.uRead] })).map
      (fun s => (s.trace, s.phase, s.bufPtr, s.buf)) = some ([.R 0x6C], .mrxAck, 1, [(0, 0x6C)]) := by decide

theorem test_read_overflow : statusAfter (exec .read { inPhase .mrx with bufPtr := 22 }) = some 0x0005B302 := by decide

theorem test_ack_completes :
    (nextOf (complete (acks 0) { inPhase .mrxAck with mq := [.uAck] })).map (fun s => (s.trace, s.phase))
      = some ([.A], .mrx) := by decide

theorem test_nack_completes :
    (nextOf (complete (acks 0) { inPhase .mrxAck with mq := [.uNack] })).map (fun s => (s.trace, s.phase))
      = some ([.N], .mrxEnd) := by decide

theorem test_nack_in_mrx_end : statusAfter (exec .nack (inPhase .mrxEnd)) = some 0x00030502 := by decide

theorem test_ack_in_mrx : statusAfter (exec .ack (inPhase .mrx)) = some 0x00030302 := by decide

/-! ## Composite transactions: L1.5, L2.4 -/

theorem test_wrreg_queue : (nextOf (exec (.wrreg 0xF4 0x2E) State.reset)).map (·.mq.length) = some 5 := by decide

theorem test_rdblk_queue :
    (nextOf (exec (.rdblk 0xAA 22) State.reset)).map (·.mq.length) = some 50 ∧
    receiveOps 3 = [.uRead, .uAck, .uRead, .uAck, .uRead, .uNack] := by decide

/-! ## Sample loads: L1.4, L1.7, L2.5, L2.6 -/

theorem test_setoss : statusAfter (exec (.setoss 3) State.reset) = some 0x00300080 := by decide

theorem test_setoss_twice :
    statusAfter (exec (.setoss 3) { State.reset with oss := 3, ossSet := true }) = some 0x00370082 := by decide

theorem test_loadcal : (nextOf (exec .loadcal (withBytes sampleBytes))).map (·.cal) = some (some sampleCal) := by decide

theorem test_loadcal_short :
    (nextOf (exec .loadcal (withBytes sampleBytes.dropLast))).map (·.errCode) = some .unwritten := by decide

theorem test_loadut : (nextOf (exec .loadut (withBytes [0x6C, 0xFA]))).map (·.ut) = some (some 27898) := by decide

theorem test_loadut_unwritten : statusAfter (exec .loadut State.reset) = some 0x00060002 := by decide

theorem test_loadup : (nextOf (exec .loadup (withBytes [0x5D, 0x23, 0x00]))).map (·.up) = some (some 23843) := by decide

theorem test_loadup_oss3 :
    (nextOf (exec .loadup { withBytes [0xFF, 0xFF, 0xFF] with oss := 3 })).map (·.up) = some (some 524287) := by decide

/-! ## Compensation: L1.1, L2.7 -/

theorem test_comp : (nextOf (exec .comp loaded)).map (·.result) = some (some ⟨150, 69964⟩) := by decide

/-- X1 + MD = 0. -/
theorem test_comp_div_zero :
    (nextOf (exec .comp { loaded with cal := some { sampleCal with md := -4743 } })).map (fun s => (s.errCode, s.result))
      = some (.divZero, none) := by decide

/-- The square of B6 wraps, and X1 rounds toward minus infinity. -/
theorem test_compensate_wraps : compensate (compInput sampleCal 20000 23843 0) = some ⟨3729, 1678007⟩ := by decide

/-- The second branch of B7 with B4 = 1 wraps. -/
theorem test_compensate_second_branch :
    compensate (compInput { sampleCal with ac4 := 1 } 27898 65535 0) = some ⟨150, -2078635847⟩ := by decide

/-- T4's rounding (the table after L2.7). -/
theorem test_temperature_rounding : [2400, 7, 8, -8, -9, -24, -25].map stepT4 = [150, 0, 1, 0, -1, -1, -2] := by decide

/-! ## Host registers, reset and programs: L2.8, L2.9, R98 -/

theorem test_read_invalid : statusAfter (step (hostDoes State.reset [.read 0x06])) = some 0x00090002 := by decide

theorem test_read_reserved :
    (nextOf (step (hostDoes State.reset [.read 0x13]))).map (fun s => (s.errInfo, s.status)) = some (0x13, 0x000A0002) := by
  decide

theorem test_write_read_only :
    (nextOf (step (hostDoes State.reset [.write 0x08 5]))).map (·.errInfo) = some 0x00000108 := by decide

theorem test_read_calibration :
    ({ State.reset with cal := some sampleCal } : State).regView 0x09 = .value 0xFFFFFFB8 ∧
    ({ State.reset with cal := some sampleCal } : State).regView 0x0B = .value 0x00007FE5 := by decide

theorem test_reset_mid_transaction :
    nextOf (step { inPhase .mtx with trace := [.S, .W 0xEE .ack], turns := [.reset] })
      = some { State.reset with trace := [.S, .W 0xEE .ack, .X] } := by decide

theorem test_assembler_line :
    assemble ⟨4500, fun _ => 25500⟩ ["go: WRREG 0xF4, 0x2E ; temperature".toList, "RD BUF21 -> v".toList]
      = some [.cmd (.wrreg 0xF4 0x2E), .rd 0x35] := by decide

theorem test_assembler_range : assemble ⟨4500, fun _ => 25500⟩ ["SETOSS 4".toList] = none := by decide

/-- A command word placed for the next step runs as the first command after reset. -/
theorem test_placed_word :
    nextOf (step (State.reset.withFetchWord 32 0x10000000)) = nextOf (exec .start State.reset) := by decide

/-! ## Witnesses: for each statement, a state and operands that meet its hypotheses -/

theorem witness_ready : State.reset.ready = true ∧ State.reset.phase = .idle ∧ State.reset.ossSet = false ∧
    State.reset.upv = false := by decide

theorem witness_not_ready : busyState.err = false ∧ busyState.busy = true ∧ busyState.mq ≠ [] ∧
    ({ State.reset with err := true } : State).err = true := by decide

/-- IllegalWordsFaultAndNothingElse: a word of each class, and a state that is ready. -/
theorem witness_illegal_words :
    State.reset.ready = true ∧ (0x00000000#32).extractLsb' 28 4 = 0x0 ∧ (0xF0000000#32).extractLsb' 28 4 = 0xF ∧
    (0x11000000#32).extractLsb' 24 4 ≠ 0 ∧
    ((0x40800000#32).extractLsb' 28 4 = 0x4 ∧ (0x40800000#32).extractLsb' 8 16 ≠ 0) ∧
    ((0x80010000#32).extractLsb' 28 4 = 0x8 ∧ (0x80010000#32).extractLsb' 16 8 ≠ 0) ∧
    ((0x90010001#32).extractLsb' 28 4 = 0x9 ∧ (0x90010001#32).extractLsb' 0 8 ≠ 0) ∧
    ((0xA0000004#32).extractLsb' 28 4 = 0xA ∧ (0xA0000004#32).extractLsb' 2 22 ≠ 0) ∧
    ((0xE0000001#32).extractLsb' 28 4 ∉ [0x4#4, 0x8, 0x9, 0xA] ∧ (0xE0000001#32).extractLsb' 0 24 ≠ 0) := by decide

/-- StepRunsTheDecodedCommand and HostWrites. -/
theorem witness_host_writes :
    (hostDoes State.reset [.write 0x00 0x10000000]).turns = [.host] ∧
    (hostDoes State.reset [.write 0x00 0x10000000]).host = [.write 0x00 0x10000000] ∧
    decode 0x10000000 = .ok .start ∧ (hostDoes State.reset [.write 0x3F 1]).host = [.write 0x3F 1] ∧ (0x3F : RegNum) ≠ 0x00 :=
  ⟨rfl, rfl, rfl, rfl, by decide⟩

/-- StepTakesTheAgentsTurn. -/
theorem witness_agent_turns :
    State.reset.turns = [] ∧ (State.reset.load [] [.bus (acks 0)]).turns = [.bus (acks 0)] ∧ State.reset.mq = [] := by decide

/-- EveryWordMeetsTheSameChecks: a hung state, and a state ready for an illegal and for an out-of-sequence word. -/
theorem witness_same_checks :
    (inPhase .hung).err = false ∧ (inPhase .hung).phase = .hung ∧ State.reset.err = false ∧ State.reset.mq = [] ∧
    State.reset.phase ≠ .hung ∧ decode 0x00000000 = .error .unassignedOpcode ∧ decode 0x20000000 = .ok .restart ∧
    State.reset.phase ∉ legalPhases .restart := ⟨rfl, rfl, rfl, rfl, by decide, rfl, rfl, by decide⟩

/-- FaultPriorityExamples: each of the three states. -/
theorem witness_priority :
    (busyState.err = false ∧ busyState.busy = true) ∧
    ((inPhase .addr).err = false ∧ (inPhase .addr).phase = .addr ∧ (inPhase .addr).busy = false) ∧
    (({ State.reset with cal := some sampleCal } : State).busy = false ∧
      ({ State.reset with cal := some sampleCal } : State).calv = true ∧
      ∀ i < 22, ({ State.reset with cal := some sampleCal } : State).bufv i = false) := by decide

/-- SpelledAndGuarded, in the statement of every command: a word of the same opcode that differs under the command's mask,
for each mask. -/
theorem witness_other_spelling :
    State.reset.ready = true ∧
    ((0x1FFFFFFF#32).extractLsb' 28 4 = 0x1 ∧ (0x1FFFFFFF#32) &&& 0xFFFFFFFF ≠ 0x10000000) ∧
    ((0x400001EE#32).extractLsb' 28 4 = 0x4 ∧ (0x400001EE#32) &&& 0xFFFFFF00 ≠ 0x40000000) ∧
    ((0x8001F42E#32).extractLsb' 28 4 = 0x8 ∧ (0x8001F42E#32) &&& 0xFFFF0000 ≠ 0x80000000) ∧
    ((0x9016AA01#32).extractLsb' 28 4 = 0x9 ∧ (0x9016AA01#32) &&& 0xFF0000FF ≠ 0x90000000) ∧
    ((0xA0000004#32).extractLsb' 28 4 = 0xA ∧ (0xA0000004#32) &&& 0xFFFFFFFC ≠ 0xA0000000) := by decide

/-- The framing primitives: every legal phase, and for each command a ready phase that is not legal. -/
theorem witness_framing_phases :
    (∀ ph ∈ [Phase.idle, .addr, .mtx, .mrx, .mrxAck, .mrxEnd], (inPhase ph).ready = true ∧ (inPhase ph).phase = ph) ∧
    (inPhase .mrx).bufPtr ≠ 22 ∧ ({ inPhase .mrx with bufPtr := 22 } : State).ready = true := by decide

/-- The framing completions: each micro-op at the head of the queue, with each answer and in each phase a clause names. -/
theorem witness_completions :
    ({ State.reset with mq := [.uStart] } : State).mq = [.uStart] ∧
    ({ inPhase .mtx with mq := [.uRestart] } : State).mq = [.uRestart] ∧
    ({ inPhase .mtx with mq := [.uStop] } : State).mq = [.uStop] ∧
    ({ inPhase .addr with mq := [.uWrite 0xEF] } : State).phase = .addr ∧ (0xEF#8).getLsbD 0 = true ∧
    (0xEE#8).getLsbD 0 = false ∧ ({ inPhase .mtx with mq := [.uWrite 0xEE] } : State).phase ≠ .addr ∧
    (acks 0).ack = .ack ∧ (⟨.nack, 0⟩ : Answer).ack = .nack ∧
    ({ inPhase .mrx with mq := [.uRead], bufPtr := 21 } : State).bufPtr < 22 ∧
    ({ inPhase .mrxAck with mq := [.uAck] } : State).mq = [.uAck] ∧
    ({ inPhase .mrxAck with mq := [.uNack] } : State).mq = [.uNack] := by decide

/-- NackedByteHangsUntilReset. -/
theorem witness_hung :
    ({ inPhase .hung with nacked := true, turns := [.bus (acks 0)] } : State).phase = .hung ∧
    ({ inPhase .hung with nacked := true, turns := [.bus (acks 0)] } : State).mq = [] ∧
    ({ inPhase .hung with nacked := true, turns := [.bus (acks 0)] } : State).nacked = true ∧
    ({ inPhase .hung with nacked := true, turns := [.bus (acks 0)] } : State).resetDue = false := by decide

/-- WrregIssuesAndCompletes: a pending WRREG and five turns of the agent. -/
theorem witness_wrreg_run :
    busyState.mq = [.uStart, .uWrite 0xEE, .uWrite 0xF4, .uWrite 0x2E, .uStop] ∧
    (busyState.load [] (List.replicate 5 (.bus (acks 0)))).turns
      = [.bus (acks 0), .bus (acks 0), .bus (acks 0), .bus (acks 0), .bus (acks 0)] := by decide

/-- RdblkIssues: the counts where its clauses meet. -/
theorem witness_rdblk_counts :
    (1#8).toNat = 1 ∧ (22#8).toNat ≤ 22 ∧ (0#8).toNat = 0 ∧ 22 < (23#8).toNat ∧ State.reset.ready = true ∧
    State.reset.phase = .idle ∧ (inPhase .addr).ready = true ∧ (inPhase .addr).phase ≠ .idle := by decide

/-- RdblkRunsToCompletion and OneNackPerRdblk: a pending RDBLK of one byte and its eight answers. -/
theorem witness_rdblk_run :
    ∃ (s t : State) (as : List Answer) (v : Nat → Byte), s.mq = rdblkSequence 0xF6 1 ∧ as.length = 6 + 2 * 1 ∧
      (∀ a ∈ as, a.ack = .ack) ∧ (∀ i < 1, (as[5 + 2 * i]?).map (·.byte) = some (v i)) ∧ s.turns = as.map .bus ++ [] ∧
      steps (6 + 2 * 1) s = .next t :=
  ⟨{ State.reset with mq := rdblkSequence 0xF6 1, turns := List.replicate 8 (.bus (acks 0x42)) }, _,
    List.replicate 8 (acks 0x42), fun _ => 0x42, rfl, rfl, by decide, by decide, rfl, rfl⟩

/-- The same for RDBLK of 22 bytes, each byte another one, and its fifty answers. -/
theorem witness_rdblk_run_full :
    let as : List Answer := (List.range 50).map fun k => acks (BitVec.ofNat 8 k)
    let v : Nat → Byte := fun i => BitVec.ofNat 8 (5 + 2 * i)
    as.length = 6 + 2 * 22 ∧ (∀ a ∈ as, a.ack = .ack) ∧ (∀ i < 22, (as[5 + 2 * i]?).map (·.byte) = some (v i)) ∧
    (nextOf (steps (6 + 2 * 22) { State.reset with mq := rdblkSequence 0xAA 22, turns := as.map .bus })).isSome = true := by
  decide

/-- WrregEqualsItsPrimitives and RdblkEqualsItsPrimitives. -/
theorem witness_equivalence :
    State.reset.ready = true ∧ State.reset.phase = .idle ∧ (List.replicate 5 (acks 0)).length = 5 ∧
    1 ≤ (22#8).toNat ∧ (22#8).toNat ≤ 22 ∧ (List.replicate 50 (acks 0)).length = 6 + 2 * (22#8).toNat := by decide

/-- SetossWritesOnce: both ways to be locked. -/
theorem witness_setoss_locked :
    ({ State.reset with ossSet := true } : State).ready = true ∧ ({ State.reset with ossSet := true } : State).ossSet = true ∧
    loaded.ready = true ∧ loaded.upv = true := by decide

/-- LoadcalDecodesTheBytes: all bytes received, the last one missing, and CAL loaded. -/
theorem witness_loadcal :
    ((withBytes sampleBytes).ready = true ∧ (withBytes sampleBytes).calv = false ∧
      ∀ i < 22, (withBytes sampleBytes).buf.read i = some (sampleByte i)) ∧
    ((withBytes sampleBytes.dropLast).ready = true ∧ ∃ i < 22, (withBytes sampleBytes.dropLast).buf.read i = none) ∧
    loaded.calv = true := by decide

/-- LoadutAssemblesTwoBytes and LoadupShiftsByOversampling: all bytes received, and each missing. -/
theorem witness_sample_loads :
    (withBytes [0x5D, 0x23, 0x00]).ready = true ∧ (withBytes [0x5D, 0x23, 0x00]).buf.read 0 = some 0x5D ∧
    (withBytes [0x5D, 0x23, 0x00]).buf.read 1 = some 0x23 ∧ (withBytes [0x5D, 0x23, 0x00]).buf.read 2 = some 0x00 ∧
    State.reset.buf.read 0 = none ∧ (withBytes [0x5D]).buf.read 1 = none ∧ (withBytes [0x5D, 0x23]).buf.read 2 = none := by
  decide

/-- CalibrationRoundTrip. -/
theorem witness_calibration : (received sampleBytes).calSet = some sampleCal := by decide

/-- DatapathCommandsLeaveTheBus and IssueFrame: a datapath command that takes effect, and a command that faults. -/
theorem witness_datapath :
    (nextOf (exec .loadut (withBytes [1, 2]))).isSome = true ∧
    (nextOf (exec .stop State.reset)).map (·.err) = some true ∧ State.reset.err = false := by decide

/-- CompCommitsOrFaults: its inputs, a missing one, and each of the two divisors at 0 and not. -/
theorem witness_comp :
    loaded.ready = true ∧ loaded.cal = some sampleCal ∧ loaded.ut = some 27898 ∧ loaded.up = some 23843 ∧
    State.reset.cal = none ∧
    (let x := compInput sampleCal 27898 23843 0
     stepT2Divisor x ≠ 0 ∧ stepP9 x (stepP1 (stepT3 x)) ≠ 0) ∧
    stepT2Divisor (compInput { sampleCal with md := -4743 } 27898 23843 0) = 0 ∧
    (let x := compInput { sampleCal with ac4 := 0 } 27898 23843 0
     stepP9 x (stepP1 (stepT3 x)) = 0) ∧
    compensate (compInput sampleCal 27898 23843 0) = some ⟨150, 69964⟩ ∧
    compensate (compInput { sampleCal with ac4 := 0 } 27898 23843 0) = none := by decide

/-- TemperatureSteps and PressureSteps: a divisor that is 0 and one that is not. -/
theorem witness_comp_steps :
    compT (compInput { sampleCal with md := -4743 } 27898 23843 0) = none ∧
    compT (compInput sampleCal 27898 23843 0) = some (150, 2400) ∧
    compP (compInput { sampleCal with ac4 := 0 } 27898 23843 0) 2400 = none ∧
    compP (compInput sampleCal 27898 23843 0) 2400 = some 69964 := by decide

/-- QuotientAgainstExactDivision: each branch at its boundary, with a small and a large remainder. -/
theorem witness_quotient :
    ((0 : Int) ≤ 0x7FFFFFFF ∧ (0x7FFFFFFF : Int) < 0x80000000 ∧ (1 : Int) ≤ 1) ∧
    ((0x80000000 : Int) < 2 ^ 32 ∧ (2 : Int) ≤ 2 ∧ 2 * ((0x80000000 : Int) % 2) < 2) ∧
    ((3 : Int) ≤ 2 * ((0x80000000 : Int) % 3) ∧ (2 : Int) ≤ 3) ∧ ((0x80000000 : Int) ≤ 0x80000000 ∧ (0 : Int) ≤ 0x80000000) := by
  decide

/-- CompIgnoresMb: a COMP that takes effect and one that faults. -/
theorem witness_comp_mb : loaded.cal = some sampleCal ∧ (nextOf (exec .comp loaded)).map (·.resv) = some true ∧
    (nextOf (exec .comp { loaded with ut := none })).map (·.errCode) = some .unwritten := by decide

/-- TemperatureDependsOnFiveInputs: other coefficients, UP and OSS, and the same T. -/
theorem witness_temperature_inputs :
    (let c' : CalSet := { sampleCal with ac1 := 0, ac4 := 1, b1 := 1, mb := 7 }
     sampleCal.ac5 = c'.ac5 ∧ sampleCal.ac6 = c'.ac6 ∧ sampleCal.mc = c'.mc ∧ sampleCal.md = c'.md ∧
     (compensate (compInput c' 27898 65535 3)).isSome = true) ∧
    (compensate (compInput sampleCal 27898 23843 0)).isSome = true := by decide

/-- HostReads: each register of the map at the ends of its ranges, and the numbers where a reserved range begins and ends. -/
theorem witness_host_reads :
    ((hostDoes loaded [.read 0x08]).turns = [.host] ∧ (hostDoes loaded [.read 0x08]).host = [.read 0x08]) ∧
    (0x08 ≤ (0x08 : RegNum).toNat ∧ (0x12 : RegNum).toNat ≤ 0x12) ∧ (0x20 ≤ (0x20 : RegNum).toNat ∧ (0x35 : RegNum).toNat ≤ 0x35) ∧
    (0x13 ≤ (0x13 : RegNum).toNat ∧ (0x1F : RegNum).toNat ≤ 0x1F ∧ 0x36 ≤ (0x36 : RegNum).toNat) := by decide

/-- The two ends of each data range read as data, and the numbers beyond them are unassigned. -/
theorem witness_register_ranges :
    (withBytes sampleBytes).regView 0x20 = .value 0x01 ∧ (withBytes sampleBytes).regView 0x35 = .value 0x34 ∧
    loaded.regView 0x12 = .value 2868 ∧ loaded.regView 0x13 = .unassigned ∧ loaded.regView 0x1F = .unassigned ∧
    loaded.regView 0x36 = .unassigned ∧ loaded.regView 0x00 = .unassigned := by decide

/-- PollWaitsForBusy. -/
theorem witness_poll :
    (hostDoes busyState [.poll]).turns = [.host] ∧ (hostDoes busyState [.poll]).host = [.poll] ∧
    (hostDoes busyState [.delay 4500]).host = [.delay 4500] := by decide

/-- FirstFaultStays, FaultedBlockIgnoresCommands and OnlyResetClearsFlags: a faulted state whose next step is a command. -/
theorem witness_faulted :
    (hostDoes { State.reset with err := true, errCode := .sequence } [.write 0 0]).err = true ∧
    (hostDoes { State.reset with err := true, errCode := .sequence } [.write 0 0]).resetDue = false ∧
    (nextOf (step (hostDoes { State.reset with err := true, errCode := .sequence } [.write 0 0]))).isSome = true ∧
    (nextOf (complete (acks 0) { busyState with err := false, errCode := .none, errInfo := 0 })).isSome = true ∧
    (hostDoes { State.reset with err := true } [.read 0x01]).host = [.read 0x01] := by decide

/-- OnlyResetClearsFlags: every flag set. -/
theorem witness_flags :
    ({ loaded with err := true, nacked := true, ossSet := true, result := some ⟨150, 69964⟩ } : State).cal = some sampleCal ∧
    loaded.utv = true ∧ loaded.upv = true ∧ ({ loaded with result := some ⟨150, 69964⟩ } : State).resv = true ∧
    loaded.resetDue = false ∧ (nextOf (step loaded)).isSome = true := by decide

/-- OnlyCompletionsAndResetMoveTheBus: a step that is a completion and one that is neither. -/
theorem witness_completion_due :
    (busyState.load [] [.bus (acks 0)]).completionDue = true ∧ (hostDoes busyState [.poll]).completionDue = false ∧
    (hostDoes busyState [.poll]).resetDue = false ∧ (nextOf (step (hostDoes busyState [.poll]))).isSome = true := by decide

/-- ResetValues: the external reset and the host's. -/
theorem witness_reset :
    (State.reset.load [] [.reset]).turns = [.reset] ∧ (hostDoes (inPhase .mtx) [.reset]).turns = [.host] ∧
    (hostDoes (inPhase .mtx) [.reset]).host = [.reset] := by decide

/-- A state in the middle of an RDBLK of two bytes: the first byte has been received. -/
def midRead : State :=
  { State.reset with
    phase := .mrxAck, mq := [.uAck, .uRead, .uNack, .uStop], buf := [(0, 0x6C)], bufPtr := 1,
    trace := [.S, .W 0xEE .ack, .W 0xF6 .ack, .Sr, .W 0xEF .ack, .R 0x6C],
    turns := List.replicate 4 (.bus (acks 0xFA)) }

/-- The invariant's statements: a state with something pending, received and emitted meets the invariant and steps on. -/
theorem witness_invariant : midRead.Inv ∧ (nextOf (step midRead)).isSome = true ∧ midRead.phase ≠ .hung ∧
    (List.replicate 4 (acks 0xFA)).length = midRead.mq.length ∧ (∀ a ∈ List.replicate 4 (acks 0xFA), a.ack = .ack) ∧
    midRead.turns = (List.replicate 4 (acks 0xFA)).map .bus ++ [] :=
  ⟨⟨by decide, by decide, by decide, by decide, by decide, by decide, by decide, by decide, by decide, by decide,
    (fun v h => nomatch h), by decide, by decide⟩, by decide, by decide, by decide, by decide, by decide⟩

/-- TraceFollowsTheGrammar: a run from power-on. -/
theorem witness_run : (nextOf (steps 2 (State.reset.load [.write 0x00 0x10000000] [.host, .bus (acks 0)]))).map (·.trace)
    = some [.S] := by decide

/-- ResetStateReads: the two ends of its two ranges. -/
theorem witness_reset_reads :
    (0x04 ≤ (0x04 : RegNum).toNat ∧ (0x12 : RegNum).toNat ≤ 0x12) ∧
    (0x20 ≤ (0x20 : RegNum).toNat ∧ (0x35 : RegNum).toNat ≤ 0x35) := by decide

/-! ## A run that meets every premise of R7 -/

/-- The host issues START and polls, the agent completes in between, and the host then has nothing left to do. -/
def liveTurn : Nat → Option Turn
  | 0 | 2 => some .host
  | 1 => some (.bus (acks 0))
  | _ => none

/-- The run of `liveTurn` from reset. -/
def liveRun : Nat → State
  | 0     => State.reset.load [.write 0x00 0x10000000, .poll] []
  | k + 1 => (nextOf (step ((liveRun k).due (liveTurn k)))).getD State.reset

/-- From its third state on the run stays where it is. -/
theorem liveRun_rests (k : Nat) : liveRun (k + 3) = liveRun 3 := by
  induction k with
  | zero => rfl
  | succ k ih =>
    show (nextOf (step ((liveRun (k + 3)).due none))).getD State.reset = liveRun 3
    rw [ih]
    decide

theorem liveRun_isRun : IsRun liveTurn liveRun where
  moves
    | 0 | 1 | 2 => rfl
    | k + 3 => by
      show step ((liveRun (k + 3)).due none) = .next (liveRun (k + 1 + 3))
      rw [liveRun_rests k, liveRun_rests (k + 1)]
      rfl
  allowed
    | 0 | 1 | 2 => rfl
    | k + 3 => by
      show (liveRun (k + 3)).allows none = true
      rw [liveRun_rests]
      rfl
  notResetsOnly k := ⟨k + 3, by omega, by simp [liveTurn]⟩

/-- The run's one pending micro-op is pending in its state 1. -/
theorem liveRun_pending {k : Nat} (h : (liveRun k).mq ≠ []) : k = 1 := by
  match k with
  | 0 | 2 => exact absurd rfl h
  | 1 => rfl
  | k + 3 => rw [liveRun_rests] at h; exact absurd rfl h

/-- The host has an action left in its first three states. -/
theorem liveRun_host {k : Nat} (h : (liveRun k).host ≠ []) : k ≤ 2 := by
  match k with
  | 0 | 1 | 2 => omega
  | k + 3 => rw [liveRun_rests] at h; exact absurd rfl h

/-- ResponsivePeripheralMeansBusReady, BusyFallsInEveryResponsiveRun and HostProgramEndsOrFaults: a run with a command that
meets all their premises. -/
theorem witness_live_run :
    IsRun liveTurn liveRun ∧ PeripheralResponsive liveTurn liveRun ∧ PeripheralAcks liveTurn liveRun ∧
    IsrNonblocking liveTurn liveRun ∧ (liveRun 0).phase ≠ .hung ∧ (liveRun 1).mq = [.uStart] := by
  refine ⟨liveRun_isRun, fun k h => ?_, fun k b us a h _ => ?_, fun k _ h => ?_, by decide, rfl⟩
  · cases liveRun_pending h
    exact ⟨1, le_rfl, .inl rfl⟩
  · cases liveRun_pending (by rw [h]; simp)
    cases (show [MicroOp.uStart] = .uWrite b :: us from h)
  · exact ⟨2, liveRun_host h, .inl rfl⟩

/-- StatusLayout: a state in each phase and with each fault code, one that is busy for each reason of R21, and one that is
not. -/
theorem witness_status_layout :
    (∀ ph ∈ [Phase.idle, .addr, .mtx, .mrx, .mrxAck, .mrxEnd, .hung], (inPhase ph).phase = ph) ∧
    (∀ c ∈ [FaultCode.none, .illegalCommand, .busyCollision, .sequence, .countRange, .bufferOverflow, .unwritten,
      .configLocked, .divZero, .readInvalid, .badRegister], ({ State.reset with errCode := c } : State).errCode = c) ∧
    (busyState.mq ≠ [] ∧ busyState.phase ≠ .hung) ∧ ((inPhase .hung).mq = [] ∧ (inPhase .hung).phase = .hung) ∧
    (State.reset.mq = [] ∧ State.reset.phase ≠ .hung) := by decide

/-- A run in which the agents never move though the host has an action left is no run (R72, log 23). -/
theorem witness_no_idle_start :
    (State.reset.load [.write 0x00 0x10000000] []).allows none = false ∧
    (State.reset.load [.write 0x00 0x10000000] []).allows (some .host) = true := by decide

/-- StallHangsWithoutResponsiveness: a micro-op is pending and the host polls. -/
theorem witness_stall :
    (busyState.load [.poll] []).err = false ∧ (busyState.load [.poll] []).mq ≠ [] ∧
    (busyState.load [.poll] []).host = [.poll] := by decide

end Sys2Proof.Tests
end

section
/-! PROOFS. What the premises of R7 say of a run, and how they imply each other (R7, R262, R270). -/

namespace Sys2Proof.Machine

/-- While the queue never empties, weak fairness has no way out but a completion (R121, R270). -/
theorem PeripheralResponsive.exists_completesAt_of_forall_mq_ne_nil {turnAt : Nat → Option Turn} {r : Nat → State}
    (hresp : PeripheralResponsive turnAt r) {k : Nat} (hpend : ∀ m, k ≤ m → (r m).mq ≠ []) :
    ∃ m, k ≤ m ∧ CompletesAt turnAt r m := by
  obtain ⟨m, hkm, hcomp | hempty⟩ := hresp k (hpend k le_rfl)
  · exact ⟨m, hkm, hcomp⟩
  · exact absurd hempty (hpend m hkm)

/-- Settles O57: a bus on which micro-ops stay pending for ever completes one of them, so it is not dead. -/
theorem responsivePeripheralMeansBusReady : Obligations.ResponsivePeripheralMeansBusReady := by
  rintro turnAt r hresp ⟨k, hpend⟩
  obtain ⟨m, -, hcomp⟩ := hresp.exists_completesAt_of_forall_mq_ne_nil hpend
  exact ⟨m, hcomp⟩

end Sys2Proof.Machine
end

section
/-! PROOFS. What a host's turn and a completion can do, said once for every invariant of the machine (R72, R99, R121). -/

namespace Sys2Proof.Machine

/-- A fault that can be recorded: its code names a fault, and after a register-access fault only the bits of R39 are set. -/
def RecordableFault (c : FaultCode) (w : Word) : Prop :=
  c ≠ .none ∧ (c = .readInvalid ∨ c = .badRegister → w &&& 0xFFFFFEC0 = 0)

theorem recordableFault_of_mem_commandFaults {c : FaultCode} (hc : c ∈ commandFaults) (w : Word) :
    RecordableFault c w := by
  simp only [commandFaults, List.mem_cons, List.not_mem_nil, or_false] at hc
  rcases hc with rfl | rfl | rfl | rfl | rfl | rfl | rfl <;> simp [RecordableFault]

/-- The register number is in bits 5 to 0 and the direction in bit 8 (R39). -/
theorem regFaultInfo_and_mask (write : Bool) (n : RegNum) : regFaultInfo write n &&& 0xFFFFFEC0 = 0 := by
  revert n; cases write <;> decide

theorem recordableFault_regFaultInfo {c : FaultCode} (hc : c ≠ .none) (write : Bool) (n : RegNum) :
    RecordableFault c (regFaultInfo write n) :=
  ⟨hc, fun _ => regFaultInfo_and_mask write n⟩

/-- What a host's access leaves in the block: the block as it was, a first fault, or the effect of a command. -/
inductive HostAccess (s : State) : State → Prop where
  | unchanged : HostAccess s s
  | faulted {c : FaultCode} {w : Word} : RecordableFault c w → HostAccess s (s.faultedWith c w)
  | effect {i : Instr} {t : State} : s.ready = true → Effect i s t → HostAccess s t

theorem HostAccess.raise (s : State) {c : FaultCode} {w : Word} (hc : RecordableFault c w) :
    HostAccess s (s.raise c w) := by
  cases he : s.err with
  | true => rw [State.raise_again he]; exact .unchanged
  | false => rw [State.raise_first he]; exact .faulted hc

theorem Issued.hostAccess {i : Instr} {s t : State} (h : Issued i s t) : HostAccess s t := by
  cases h with
  | ignored => exact .unchanged
  | faulted _ hc => exact .faulted (recordableFault_of_mem_commandFaults hc _)
  | effect hr he => exact .effect hr he

theorem issue_hostAccess (w : Word) (s : State) : ∃ t, issue w s = .next t ∧ HostAccess s t := by
  obtain ⟨t, ht, ⟨i, -, hi⟩ | ⟨e, -, ⟨-, rfl⟩ | ⟨-, -, rfl⟩ | ⟨-, rfl⟩⟩⟩ := issue_goes_on w s
  · exact ⟨t, ht, hi.hostAccess⟩
  · exact ⟨t, ht, .unchanged⟩
  · exact ⟨_, ht, .faulted (by simp [RecordableFault])⟩
  · exact ⟨_, ht, .faulted (by simp [RecordableFault])⟩

theorem regWrite_hostAccess (n : RegNum) (v : Word) (s : State) : ∃ t, regWrite n v s = .next t ∧ HostAccess s t := by
  unfold regWrite
  split
  · exact issue_hostAccess v s
  · exact ⟨_, rfl, .raise s (recordableFault_regFaultInfo (by decide) true n)⟩

/-- A register read is an access and a note of what was read (R12, R62). -/
theorem State.regRead_hostAccess (s : State) (n : RegNum) :
    ∃ u rs k, HostAccess s u ∧ s.regRead n = { u with reads := rs, draws := k } := by
  rcases s.regRead_cases n with ⟨v, -, h⟩ | ⟨-, h⟩ | ⟨-, h⟩
  · exact ⟨s, _, s.draws, .unchanged, h⟩
  · exact ⟨_, _, _, .raise s (recordableFault_regFaultInfo (by decide) false n), h⟩
  · exact ⟨_, _, _, .raise s (recordableFault_regFaultInfo (by decide) false n), h⟩

/-- Everything a host's turn can do (R99): a reset, or an access, after which only the agents' own fields differ. -/
theorem hostTurn_cases (s : State) : ∃ t, hostTurn s = .next t ∧
    ((∃ p, s.host = .reset :: p ∧ t = State.resetBlock { s with host := p }) ∨
     (∃ p u rs k, HostAccess { s with host := p } u ∧ t = { u with reads := rs, draws := k })) := by
  unfold hostTurn
  split
  · exact ⟨_, rfl, .inr ⟨s.host, s, s.reads, s.draws, .unchanged, rfl⟩⟩
  · next n v p _ =>
    obtain ⟨t, ht, ha⟩ := regWrite_hostAccess n v { s with host := p }
    exact ⟨t, ht, .inr ⟨p, t, t.reads, t.draws, ha, rfl⟩⟩
  · next n p _ =>
    obtain ⟨u, rs, k, ha, he⟩ := State.regRead_hostAccess { s with host := p } n
    exact ⟨_, rfl, .inr ⟨p, u, rs, k, ha, he⟩⟩
  · next p _ =>
    cases s.busy with
    | true =>
      obtain ⟨u, rs, k, ha, he⟩ := s.regRead_hostAccess regStatus
      exact ⟨_, rfl, .inr ⟨s.host, u, rs, k, ha, he⟩⟩
    | false =>
      obtain ⟨u, rs, k, ha, he⟩ := State.regRead_hostAccess { s with host := p } regStatus
      exact ⟨_, rfl, .inr ⟨p, u, rs, k, ha, he⟩⟩
  · next p _ => exact ⟨_, rfl, .inr ⟨p, _, s.reads, s.draws, .unchanged, rfl⟩⟩
  · next p hh => exact ⟨_, rfl, .inl ⟨p, hh, rfl⟩⟩

/-- Every completion emits one symbol. Either the rest of the queue stays, and the phase and the scratch buffer change, or a
byte was refused and the engine hangs (R121, R128). -/
theorem completeOp_cases {u : MicroOp} {a : Answer} {s t : State} (h : completeOp u a s = .next t) :
    (∃ y ph m n, t = { s.emit y with phase := ph, buf := m, bufPtr := n }) ∨
    (∃ b, t = { s.emit (.W b .nack) with nacked := true, phase := .hung, mq := [] }) := by
  cases u with
  | uWrite b =>
    simp only [completeOp] at h
    cases ha : a.ack with
    | ack => rw [ha] at h; cases h; exact .inl ⟨_, _, _, _, rfl⟩
    | nack => rw [ha] at h; cases h; exact .inr ⟨b, rfl⟩
  | uRead =>
    simp only [completeOp, completeRead] at h
    split at h
    · cases h; exact .inl ⟨_, _, _, _, rfl⟩
    · cases h
  | _ => cases h; exact .inl ⟨_, _, _, _, rfl⟩

end Sys2Proof.Machine
end

section
/-! PROOFS. The invariant holds at reset, and every step goes on and keeps it (R20 to R33, R39, R43). -/

namespace Sys2Proof.Machine

/-! Traces, queues and widths -/

theorem phaseAlong_append (ph : Phase) (l r : List Symbol) :
    phaseAlong ph (l ++ r) = (phaseAlong ph l).bind (phaseAlong · r) := by
  induction l generalizing ph with
  | nil => rfl
  | cons y l ih =>
    simp only [List.cons_append, phaseAlong]
    cases ph.afterSymbol y with
    | none => rfl
    | some ph' => exact ih ph'

/-- One more symbol takes a trace from the phase it leads to. -/
theorem phaseAlong_concat {ph q r : Phase} {l : List Symbol} {y : Symbol} (hl : phaseAlong ph l = some q)
    (hy : q.afterSymbol y = some r) : phaseAlong ph (l ++ [y]) = some r := by
  simp [phaseAlong_append, hl, phaseAlong, hy]

/-- X ends every transaction a reset cuts short (R260). -/
theorem Phase.afterSymbol_X {ph : Phase} (h : ph ≠ .idle) : ph.afterSymbol .X = some .idle := by
  cases ph with
  | idle => exact absurd rfl h
  | _ => rfl

/-- An acknowledged byte leads to the phase its completion sets (R126, R127). -/
theorem Phase.afterSymbol_acknowledged {ph : Phase} (h : ph = .addr ∨ ph = .mtx) (b : Byte) :
    ph.afterSymbol (.W b .ack) = some (phaseAfterWrite ph b) := by
  rcases h with rfl | rfl <;> rfl

theorem Phase.afterSymbol_refused {ph : Phase} (h : ph = .addr ∨ ph = .mtx) (b : Byte) :
    ph.afterSymbol (.W b .nack) = some .hung := by
  rcases h with rfl | rfl <;> rfl

theorem phaseAfterWrite_ne_hung (ph : Phase) (b : Byte) : phaseAfterWrite ph b ≠ .hung := by
  unfold phaseAfterWrite; split_ifs <;> simp

/-- The receives of RDBLK and its uSTOP fit the scratch buffer when the bytes do (R151). -/
theorem queueFits_receiveOps {n k : Nat} (hk : 1 ≤ k) (h : n + k ≤ Config.bufCap) :
    queueFits .mrx n (receiveOps k ++ [.uStop]) = true := by
  induction k using receiveOps.induct generalizing n with
  | case1 => omega
  | case2 => simpa [receiveOps, queueFits] using h
  | case3 k ih =>
    have hn : n < Config.bufCap := by omega
    simpa [receiveOps, queueFits, hn] using ih (n := n + 1) (by omega) (by omega)

theorem queueFits_rdblkOps (reg : Byte) (n : Nat) {k : Nat} (hk : 1 ≤ k) (h : k ≤ Config.bufCap) :
    queueFits .idle n (rdblkOps reg k) = true := by
  have hr : queueFits .mrx 0 (receiveOps k ++ [.uStop]) = true := queueFits_receiveOps hk (by omega)
  simpa [rdblkOps, queueFits, phaseAfterWrite, Config.addrW, Config.addrR] using hr

theorem queueFits_wrregOps (reg val : Byte) (n : Nat) : queueFits .idle n (wrregOps reg val) = true := by
  simp [wrregOps, queueFits, phaseAfterWrite, Config.addrW]

/-- `raw >> (8 − OSS)` of a 24-bit value fits 16 + OSS bits (R174, R32). -/
theorem rawPressure_lt (oss : BitVec 2) (raw : BitVec 24) : (rawPressure oss raw).toNat < 2 ^ (16 + oss.toNat) := by
  have hoss : 8 - oss.toNat + (16 + oss.toNat) = 24 := by omega
  have hquot : raw.toNat / 2 ^ (8 - oss.toNat) < 2 ^ (16 + oss.toNat) :=
    Nat.div_lt_of_lt_mul (by rw [← pow_add, hoss]; exact raw.isLt)
  calc (rawPressure oss raw).toNat = raw.toNat / 2 ^ (8 - oss.toNat) % 2 ^ 19 := by
        simp [rawPressure, Nat.shiftRight_eq_div_pow]
    _ ≤ raw.toNat / 2 ^ (8 - oss.toNat) := Nat.mod_le _ _
    _ < 2 ^ (16 + oss.toNat) := hquot

/-! The invariant under each kind of change -/

theorem State.reset_inv : State.reset.Inv where
  filled := rfl
  pointer := by decide
  queueShort := by decide
  queueLegal := rfl
  nackedHung := by decide
  hungEmpty _ := rfl
  noFault _ := ⟨rfl, rfl⟩
  fault h := by cases h
  accessInfo _ := by decide
  defaultOss _ := rfl
  pressureWidth _ h := by cases h
  resultInputs h := by cases h
  tracePhase := rfl

/-- A reset keeps a trace that leads to IDLE, and whatever the agents hold (R43, R260). -/
theorem State.reset_inv_of_trace {tr : List Symbol} (h : phaseAlong .idle tr = some .idle) (rs : List HostRead) (k : Nat)
    (p : List HostAction) (ts : List Turn) :
    ({ State.reset with trace := tr, reads := rs, draws := k, host := p, turns := ts } : State).Inv :=
  { State.reset_inv with tracePhase := h }

section
variable {s : State} (h : s.Inv)
include h

/-- The invariant does not speak of what is not the block's. -/
theorem State.Inv.withAgents (rs : List HostRead) (k : Nat) (p : List HostAction) (ts : List Turn) :
    ({ s with reads := rs, draws := k, host := p, turns := ts } : State).Inv := { h with }

theorem State.Inv.resetBlock : s.resetBlock.Inv := by
  refine State.reset_inv_of_trace ?_ s.reads s.draws s.host s.turns
  split
  · next hp => rw [h.tracePhase, hp]
  · next hp => exact phaseAlong_concat h.tracePhase (Phase.afterSymbol_X hp)

theorem State.Inv.faultedWith {c : FaultCode} {w : Word} (hc : RecordableFault c w) : (s.faultedWith c w).Inv :=
  { h with
    noFault := fun he => by cases he
    fault := fun _ => hc.1
    accessInfo := hc.2 }

/-- A bus command fills the queue with micro-ops that can complete from here (R120). -/
theorem State.Inv.withQueue (hp : s.phase ≠ .hung) {ops : List MicroOp} (hlen : ops.length ≤ Config.queueCap)
    (hops : queueFits s.phase s.bufPtr.toNat ops = true) : ({ s with mq := ops } : State).Inv :=
  { h with
    queueShort := hlen
    queueLegal := hops
    hungEmpty := fun hh => absurd hh hp }

/-- READ is accepted only while a byte fits the scratch buffer (R129). -/
theorem State.Inv.bufPtr_lt (hp : s.bufPtr ≠ 22) : s.bufPtr.toNat < Config.bufCap :=
  lt_of_le_of_ne h.pointer fun he => hp (BitVec.eq_of_toNat_eq he)

/-- An accepted command keeps the invariant. -/
theorem State.Inv.effect {i : Instr} {t : State} (hr : s.ready = true) (he : Effect i s t) : t.Inv := by
  obtain ⟨-, -, hh⟩ := State.ready_iff.1 hr
  cases he with
  | start hp => exact h.withQueue hh (by decide) (by simp [hp, queueFits])
  | restart hp => exact h.withQueue hh (by decide) (by rcases hp with hp | hp <;> simp [hp, queueFits])
  | stop hp => exact h.withQueue hh (by decide) (by rcases hp with hp | hp <;> simp [hp, queueFits])
  | write b hp => exact h.withQueue hh (by simp [Config.queueCap]) (by rcases hp with hp | hp <;> simp [hp, queueFits])
  | read hp hn => exact h.withQueue hh (by decide) (by simpa [hp, queueFits] using h.bufPtr_lt hn)
  | ack hp => exact h.withQueue hh (by decide) (by simp [hp, queueFits])
  | nack hp => exact h.withQueue hh (by decide) (by simp [hp, queueFits])
  | wrreg reg val hp =>
    exact h.withQueue hh (by decide : 5 ≤ Config.queueCap) (by rw [hp]; exact queueFits_wrregOps reg val _)
  | rdblk reg count hp h1 h2 =>
    refine h.withQueue hh ?_ (by rw [hp]; exact queueFits_rdblkOps reg _ h1 h2)
    rw [rdblkOps_length, Config.queueCap]
    omega
  | setoss oss _ hup =>
    exact { h with
      defaultOss := fun hs => by cases hs
      pressureWidth := fun v hv => by rw [hup] at hv; cases hv }
  | loadcal _ _ => exact { h with resultInputs := fun hv => ⟨rfl, (h.resultInputs hv).2⟩ }
  | loadut _ => exact { h with resultInputs := fun hv => ⟨(h.resultInputs hv).1, rfl, (h.resultInputs hv).2.2⟩ }
  | loadup _ =>
    exact { h with
      pressureWidth := fun v hv => by cases hv; exact rawPressure_lt s.oss _
      resultInputs := fun hv => ⟨(h.resultInputs hv).1, (h.resultInputs hv).2.1, rfl⟩ }
  | comp hcal hut hup _ =>
    exact { h with resultInputs := fun _ => by simp [State.calv, State.utv, State.upv, hcal, hut, hup] }

theorem State.Inv.hostAccess {t : State} (ha : HostAccess s t) : t.Inv := by
  cases ha with
  | unchanged => exact h
  | faulted hc => exact h.faultedWith hc
  | effect hr he => exact h.effect hr he

theorem State.Inv.not_nacked {u : MicroOp} {us : List MicroOp} (hq : s.mq = u :: us) : s.nacked = false := by
  by_contra hn
  have := h.hungEmpty (h.nackedHung.1 (by simpa using hn))
  simp [hq] at this

/-- A completion that hangs nothing: the head leaves the queue, the symbol leads to the new phase, and the rest of the queue
can complete from there. -/
theorem State.Inv.emitted {u : MicroOp} {us : List MicroOp} (hq : s.mq = u :: us) {y : Symbol} {ph : Phase} {m : Memory}
    {n : BitVec 5} (hy : s.phase.afterSymbol y = some ph) (hph : ph ≠ .hung)
    (hm : m.map Prod.fst = List.range n.toNat) (hn : n.toNat ≤ Config.bufCap) (hus : queueFits ph n.toNat us = true) :
    ({ s with mq := us, phase := ph, trace := s.trace ++ [y], buf := m, bufPtr := n } : State).Inv :=
  { h with
    filled := hm
    pointer := hn
    queueShort := by have := h.queueShort; simp only [hq, List.length_cons] at this; exact (Nat.le_succ _).trans this
    queueLegal := hus
    nackedHung := by simp [h.not_nacked hq, hph]
    hungEmpty := fun hh => absurd hh hph
    tracePhase := phaseAlong_concat h.tracePhase hy }

/-- A refused byte hangs the engine and drops the queue (R128). -/
theorem State.Inv.refused {y : Symbol} (hy : s.phase.afterSymbol y = some .hung) :
    ({ s with mq := [], phase := .hung, nacked := true, trace := s.trace ++ [y] } : State).Inv :=
  { h with
    queueShort := Nat.zero_le _
    queueLegal := rfl
    nackedHung := by simp
    hungEmpty := fun _ => rfl
    tracePhase := phaseAlong_concat h.tracePhase hy }

/-- A received byte is stored right above the bytes that hold a value (R129). -/
theorem State.Inv.filled_write (v : Byte) :
    (s.buf.write s.bufPtr.toNat v).map Prod.fst = List.range (s.bufPtr.toNat + 1) := by
  rw [Memory.write_append _ (by rw [h.filled]; simp), List.map_append, h.filled, List.range_succ]
  rfl

/-- Every pending micro-op completes, whatever the peripheral answers, and the invariant stays. -/
theorem State.Inv.completeOp_next {u : MicroOp} {us : List MicroOp} (hq : s.mq = u :: us) (a : Answer) :
    ∃ t, completeOp u a { s with mq := us } = .next t ∧ t.Inv := by
  have hl : queueFits s.phase s.bufPtr.toNat (u :: us) = true := hq ▸ h.queueLegal
  cases u with
  | uStart =>
    simp only [queueFits, Bool.and_eq_true, beq_iff_eq] at hl
    exact ⟨_, rfl, h.emitted hq (y := .S) (n := 0) (by rw [hl.1]; rfl) (by simp) rfl (by decide) hl.2⟩
  | uRestart =>
    simp only [queueFits, Bool.and_eq_true, Bool.or_eq_true, beq_iff_eq] at hl
    have hy : s.phase.afterSymbol .Sr = some .addr := by rcases hl.1 with hp | hp <;> rw [hp] <;> rfl
    exact ⟨_, rfl, h.emitted hq hy (by simp) h.filled h.pointer hl.2⟩
  | uStop =>
    simp only [queueFits, Bool.and_eq_true, Bool.or_eq_true, beq_iff_eq] at hl
    have hy : s.phase.afterSymbol .P = some .idle := by rcases hl.1 with hp | hp <;> rw [hp] <;> rfl
    exact ⟨_, rfl, h.emitted hq hy (by simp) h.filled h.pointer hl.2⟩
  | uWrite b =>
    simp only [queueFits, Bool.and_eq_true, Bool.or_eq_true, beq_iff_eq] at hl
    refine ⟨_, rfl, ?_⟩
    cases a.ack with
    | ack =>
      exact h.emitted hq (Phase.afterSymbol_acknowledged hl.1 b) (phaseAfterWrite_ne_hung _ b) h.filled h.pointer hl.2
    | nack => exact h.refused (Phase.afterSymbol_refused hl.1 b)
  | uRead =>
    simp only [queueFits, Bool.and_eq_true, decide_eq_true_eq, beq_iff_eq] at hl
    obtain ⟨⟨hp, hn⟩, hus⟩ := hl
    have hsucc : (s.bufPtr + 1).toNat = s.bufPtr.toNat + 1 := by
      have : s.bufPtr.toNat < 22 := hn
      bv_omega
    refine ⟨_, if_pos hn, h.emitted hq (y := .R a.byte) (by rw [hp]; rfl) (by simp) ?_ ?_ ?_⟩
    · rw [hsucc]; exact h.filled_write a.byte
    · rw [hsucc]; exact hn
    · rw [hsucc]; exact hus
  | uAck =>
    simp only [queueFits, Bool.and_eq_true, beq_iff_eq] at hl
    exact ⟨_, rfl, h.emitted hq (y := .A) (by rw [hl.1]; rfl) (by simp) h.filled h.pointer hl.2⟩
  | uNack =>
    simp only [queueFits, Bool.and_eq_true, beq_iff_eq] at hl
    exact ⟨_, rfl, h.emitted hq (y := .N) (by rw [hl.1]; rfl) (by simp) h.filled h.pointer hl.2⟩

theorem State.Inv.complete_next (a : Answer) : ∃ t, complete a s = .next t ∧ t.Inv := by
  rcases complete_cases (rfl : complete a s = _) with ⟨-, ho⟩ | ⟨u, us, hq, ho⟩
  · exact ⟨s, ho, h⟩
  · rw [← ho]; exact h.completeOp_next hq a

theorem State.Inv.hostTurn_next : ∃ t, hostTurn s = .next t ∧ t.Inv := by
  obtain ⟨t, ht, ⟨p, -, rfl⟩ | ⟨p, u, rs, k, ha, rfl⟩⟩ := hostTurn_cases s
  · exact ⟨_, ht, (h.withAgents s.reads s.draws p s.turns).resetBlock⟩
  · exact ⟨_, ht, ((h.withAgents s.reads s.draws p s.turns).hostAccess ha).withAgents rs k u.host u.turns⟩

/-- Every step from a state with the invariant goes on and keeps it. -/
theorem State.Inv.step_next : ∃ t, step s = .next t ∧ t.Inv := by
  have hts (ts : List Turn) := h.withAgents s.reads s.draws s.host ts
  rcases step_cases s with ⟨-, ho⟩ | ⟨ts, -, ho⟩ | ⟨a, ts, -, ho⟩ | ⟨ts, -, ho⟩
  · exact ⟨s, ho, h⟩
  · rw [ho]; exact (hts ts).hostTurn_next
  · rw [ho]; exact (hts ts).complete_next a
  · exact ⟨_, ho, (hts ts).resetBlock⟩

end

/-- Settles O52: the one step there is goes on to a state with the invariant. -/
theorem stepKeepsTheInvariant : Obligations.StepKeepsTheInvariant := by
  intro s t h ht
  obtain ⟨u, hu, hinv⟩ := h.step_next
  rw [ht] at hu
  exact Host.Outcome.next.inj hu ▸ hinv

/-- Settles O53: a uREAD is pending only where its byte still fits the scratch buffer. -/
theorem everyStepGoesOn : Obligations.EveryStepGoesOn := by
  intro s h
  obtain ⟨t, ht, -⟩ := h.step_next
  exact ⟨t, ht⟩

/-- Settles O51: an empty trace leaves the bus released. -/
theorem invariantHoldsAtReset : Obligations.InvariantHoldsAtReset :=
  fun p ts => State.reset_inv_of_trace (tr := []) rfl [] 0 p ts

/-! The scratch buffer -/

/-- A byte holds a value exactly when its index is listed (R24). -/
theorem Memory.valid_iff_mem (m : Memory) (i : Nat) : m.valid i = true ↔ i ∈ m.map Prod.fst := by
  induction m with
  | nil => simp [Memory.valid]
  | cons c rest ih =>
    obtain ⟨b, v⟩ := c
    by_cases hb : i = b
    · simp [Memory.valid, Memory.read, hb]
    · simpa [Memory.valid, Memory.read, hb] using ih

/-- Settles O54: the listed indexes are 0 to BUFPTR - 1, and BUFPTR is at most the capacity. -/
theorem scratchBufferIsCanonical : Obligations.ScratchBufferIsCanonical := by
  refine fun s h => ⟨(Memory.wf_iff s.buf).2 ?_, fun i => ?_⟩
  · rw [h.filled]
    exact ⟨List.pairwise_lt_range, fun a ha => (List.mem_range.1 ha).trans_le h.pointer⟩
  · rw [Bool.eq_iff_iff, State.bufv, Memory.valid_iff_mem, h.filled, List.mem_range, decide_eq_true_eq]

end Sys2Proof.Machine
end

section
/-! PROOFS. What a step that is not a reset keeps: the sticky flags, the calibration and a set OSS (R29, R30, R37), and,
unless it is a completion, the bus (R20, R133). -/

namespace Sys2Proof.Machine

/-- Every flag that is set stays set, CAL stays as it was loaded and OSS as it was set. -/
structure KeepsFlags (s t : State) : Prop where
  err : s.err = true → t.err = true
  nacked : s.nacked = true → t.nacked = true
  cal : ∀ c, s.cal = some c → t.cal = some c
  utv : s.utv = true → t.utv = true
  upv : s.upv = true → t.upv = true
  resv : s.resv = true → t.resv = true
  oss : s.ossSet = true → t.ossSet = true ∧ t.oss = s.oss

theorem KeepsFlags.refl (s : State) : KeepsFlags s s := ⟨id, id, fun _ => id, id, id, id, fun h => ⟨h, rfl⟩⟩

/-- LOADCAL and SETOSS are accepted only before CALV and OSSSET are set; every other command only sets valid bits. -/
theorem Effect.keepsFlags {i : Instr} {s t : State} (h : Effect i s t) : KeepsFlags s t := by
  have hrefl := KeepsFlags.refl s
  cases h with
  | setoss _ hset _ => exact { hrefl with oss := fun hs => by rw [hset] at hs; cases hs }
  | loadcal hcal _ => exact { hrefl with cal := fun c hc => by rw [hcal] at hc; cases hc }
  | loadut _ => exact { hrefl with utv := fun _ => rfl }
  | loadup _ => exact { hrefl with upv := fun _ => rfl }
  | comp _ _ _ _ => exact { hrefl with resv := fun _ => rfl }
  | _ => exact { hrefl with }

theorem HostAccess.keepsFlags {s t : State} (h : HostAccess s t) : KeepsFlags s t := by
  cases h with
  | unchanged => exact .refl s
  | faulted _ => exact { KeepsFlags.refl s with err := fun _ => rfl }
  | effect _ he => exact he.keepsFlags

theorem completeOp_keepsFlags {u : MicroOp} {a : Answer} {s t : State} (h : completeOp u a s = .next t) :
    KeepsFlags s t := by
  rcases completeOp_cases h with ⟨_, _, _, _, rfl⟩ | ⟨_, rfl⟩
  · exact { KeepsFlags.refl s with }
  · exact { KeepsFlags.refl s with nacked := fun _ => rfl }

/-- A host's turn that is no reset is an access, and what the host read is noted. -/
theorem hostTurn_access {s t : State} (hn : s.host.head? ≠ some .reset) (h : hostTurn s = .next t) :
    ∃ p u rs k, HostAccess { s with host := p } u ∧ t = { u with reads := rs, draws := k } := by
  obtain ⟨t', ht, ⟨p, hp, -⟩ | hc⟩ := hostTurn_cases s
  · exact absurd (by rw [hp]; rfl) hn
  · rw [h] at ht; exact Host.Outcome.next.inj ht ▸ hc

/-- Everything a step can do that is not a reset. -/
theorem step_cases_of_no_reset {s t : State} (hn : s.resetDue = false) (h : step s = .next t) :
    (s.completionDue = false ∧ ∃ ts p u rs k,
      HostAccess { s with turns := ts, host := p } u ∧ t = { u with reads := rs, draws := k }) ∨
    (s.completionDue = true ∧ ∃ u us a ts,
      s.mq = u :: us ∧ completeOp u a { s with turns := ts, mq := us } = .next t) := by
  rcases step_cases s with ⟨ht, ho⟩ | ⟨ts, ht, ho⟩ | ⟨a, ts, ht, ho⟩ | ⟨ts, ht, -⟩
  · rw [h] at ho
    exact .inl ⟨by simp [State.completionDue, ht], s.turns, s.host, s, s.reads, s.draws, .unchanged,
      Host.Outcome.next.inj ho⟩
  · obtain ⟨p, u, rs, k, hc⟩ := hostTurn_access (by simpa [State.resetDue, ht] using hn) (ho.symm.trans h)
    exact .inl ⟨by simp [State.completionDue, ht], ts, p, u, rs, k, hc⟩
  · rcases complete_cases (ho.symm.trans h) with ⟨hq, hs⟩ | ⟨u, us, hq, hs⟩
    · exact .inl ⟨by simpa [State.completionDue, ht] using hq, ts, s.host, _, s.reads, s.draws, .unchanged,
        Host.Outcome.next.inj hs⟩
    · have hq : s.mq = u :: us := hq
      exact .inr ⟨by simp [State.completionDue, ht, hq], u, us, a, ts, hq, hs⟩
  · simp [State.resetDue, ht] at hn

/-- Settles O47: neither an access of the host nor a completion clears a flag. -/
theorem onlyResetClearsFlags : Obligations.OnlyResetClearsFlags := by
  intro s t hn h
  have hk : KeepsFlags s t := by
    rcases step_cases_of_no_reset hn h with ⟨-, ts, p, u, rs, k, ha, rfl⟩ | ⟨-, u, us, a, ts, -, hc⟩
    · exact { ha.keepsFlags with }
    · exact { completeOp_keepsFlags hc with }
  exact ⟨hk.err, hk.nacked, hk.cal, hk.utv, hk.upv, hk.resv, hk.oss⟩

/-- No access of the host moves the bus: a bus command only fills the queue (R120, R133). -/
theorem HostAccess.keepsBus {s t : State} (h : HostAccess s t) : t.phase = s.phase ∧ t.trace = s.trace := by
  cases h with
  | unchanged => exact ⟨rfl, rfl⟩
  | faulted _ => exact ⟨rfl, rfl⟩
  | effect _ he => cases he <;> exact ⟨rfl, rfl⟩

/-- A completion emits one symbol, and the rest of the queue stays or is dropped as a whole (R121, R128). -/
theorem completeOp_emits_one {u : MicroOp} {a : Answer} {s t : State} (h : completeOp u a s = .next t) :
    (∃ y, t.trace = s.trace ++ [y]) ∧ (t.mq = s.mq ∨ t.mq = []) := by
  rcases completeOp_cases h with ⟨y, _, _, _, rfl⟩ | ⟨b, rfl⟩
  · exact ⟨⟨y, rfl⟩, .inl rfl⟩
  · exact ⟨⟨_, rfl⟩, .inr rfl⟩

theorem State.resetDue_of_completionDue {s : State} (h : s.completionDue = true) : s.resetDue = false := by
  unfold State.completionDue at h
  split at h
  · next ht => simp [State.resetDue, ht]
  · cases h

/-- Settles O48: a step that is neither is an access of the host, and that leaves the bus alone. -/
theorem onlyCompletionsAndResetMoveTheBus : Obligations.OnlyCompletionsAndResetMoveTheBus := by
  refine fun s t h => ⟨fun hc hn => ?_, fun hc => ?_⟩
  · rcases step_cases_of_no_reset hn h with ⟨-, ts, p, u, rs, k, ha, rfl⟩ | ⟨hc', -⟩
    · exact ha.keepsBus
    · rw [hc] at hc'; cases hc'
  · rcases step_cases_of_no_reset (State.resetDue_of_completionDue hc) h with ⟨hc', -⟩ | ⟨-, u, us, a, ts, hq, ho⟩
    · rw [hc] at hc'; cases hc'
    · simpa [hq] using completeOp_emits_one ho

end Sys2Proof.Machine
end

section
/-! PROOFS. The layouts of STATUS and BUFVALID, and what the host reads right after power-on (R38 to R43). -/

namespace Sys2Proof.Machine

theorem getLsbD_flagAt {lo : Nat} (hlo : lo < 32) (b : Bool) (i : Nat) :
    (flagAt lo b).getLsbD i = (decide (i = lo) && b) := by
  rw [flagAt, getLsbD_fieldAt, BitVec.getLsbD_ofBool]
  rcases lt_trichotomy i lo with h | rfl | h
  · simp [h, h.ne]
  · simp [hlo]
  · simp [h.ne', show i - lo ≠ 0 by omega]

/-- A bit of a register that is built flag by flag. -/
theorem getLsbD_foldl_flagAt (f : Nat → Bool) {l : List Nat} (hl : ∀ j ∈ l, j < 32) (acc : Word) (i : Nat) :
    (l.foldl (fun acc j => acc ||| flagAt j (f j)) acc).getLsbD i = (acc.getLsbD i || (decide (i ∈ l) && f i)) := by
  induction l generalizing acc with
  | nil => simp
  | cons j l ih =>
    rw [List.forall_mem_cons] at hl
    rw [List.foldl_cons, ih hl.2, BitVec.getLsbD_or, getLsbD_flagAt hl.1]
    by_cases hij : i = j
    · subst hij; cases f i <;> simp
    · simp [hij]

theorem State.getLsbD_bufValid (s : State) (i : Nat) : s.bufValid.getLsbD i = (decide (i < 22) && s.bufv i) := by
  rw [State.bufValid, getLsbD_foldl_flagAt s.bufv (by simp [Config.bufCap]; omega)]
  simp [Config.bufCap]

/-- No scratch byte holds a value at reset, so no bit is 1 (R43). -/
theorem bufValid_reset : State.reset.bufValid = 0 := by
  apply BitVec.eq_of_getLsbD_eq
  intro i _
  simp [State.getLsbD_bufValid, State.bufv, Memory.valid, State.reset]

/-- Settles O41: the register is built flag by flag, one for each scratch byte. -/
theorem bufvalidLayout : Obligations.BufvalidLayout := ⟨State.getLsbD_bufValid, bufValid_reset⟩

/-- Bits from lo on that are those of v make the field v. -/
theorem extractLsb'_eq_of_getLsbD {w : Word} {lo n : Nat} {v : BitVec n} (h : ∀ i < n, w.getLsbD (lo + i) = v.getLsbD i) :
    w.extractLsb' lo n = v := by
  apply BitVec.eq_of_getLsbD_eq
  intro i hi
  simp [hi, h i hi]

/-- The low byte of STATUS, flag by flag (R38). -/
def State.flags (s : State) : List Bool := [s.busy, s.err, s.nacked, s.calv, s.utv, s.upv, s.resv, s.ossSet]

theorem State.getLsbD_status (s : State) {i : Nat} (hi : i < 32) :
    s.status.getLsbD i =
      if i < 8 then s.flags.getD i false else if i < 11 then s.phase.code.getLsbD (i - 8)
      else if i < 16 then s.bufPtr.getLsbD (i - 11) else if i < 20 then s.errCode.number.getLsbD (i - 16)
      else s.oss.getLsbD (i - 20) := by
  have above {n : Nat} (v : BitVec n) (k : Nat) (h : n ≤ k) : v.getLsbD k = false := BitVec.getLsbD_of_ge v k h
  simp (disch := decide) only [State.status, BitVec.getLsbD_or, getLsbD_flagAt, getLsbD_fieldAt, hi, decide_true,
    Bool.true_and]
  split_ifs with h1 h2 h3 h4
  · have hfields : i < 11 ∧ i < 16 ∧ i < 20 := by omega
    simp only [h1, hfields, decide_true, Bool.not_true, Bool.false_and, Bool.or_false]
    interval_cases i <;> simp [State.flags]
  all_goals
    have hflags : i ≠ 0 ∧ i ≠ 1 ∧ i ≠ 2 ∧ i ≠ 3 ∧ i ≠ 4 ∧ i ≠ 5 ∧ i ≠ 6 ∧ i ≠ 7 := by omega
    simp only [hflags, decide_false, Bool.false_and, Bool.false_or]
  · simp [h1, h2, show i < 16 by omega, show i < 20 by omega]
  · simp [h2, h3, show ¬ i < 8 by omega, show i < 20 by omega, above s.phase.code (i - 8) (by omega)]
  · simp [h1, h2, h3, h4, above s.phase.code (i - 8) (by omega), above s.bufPtr (i - 11) (by omega)]
  · simp [h1, h2, h3, h4, above s.phase.code (i - 8) (by omega), above s.bufPtr (i - 11) (by omega),
      above s.errCode.number (i - 16) (by omega)]

theorem Phase.code_le (ph : Phase) : ph.code.toNat ≤ 6 := by cases ph <;> decide

theorem FaultCode.number_le (c : FaultCode) : c.number.toNat ≤ 10 := by cases c <;> decide

theorem State.busy_iff (s : State) : s.busy = true ↔ s.mq ≠ [] ∨ s.phase = .hung := by
  simp [State.busy]

section
variable (s : State)

theorem State.status_phase : s.status.extractLsb' 8 3 = s.phase.code :=
  extractLsb'_eq_of_getLsbD fun i hi => by
    rw [s.getLsbD_status (by omega)]
    simp [show 8 + i < 11 by omega]

theorem State.status_bufPtr : s.status.extractLsb' 11 5 = s.bufPtr :=
  extractLsb'_eq_of_getLsbD fun i hi => by
    rw [s.getLsbD_status (by omega)]
    simp [show ¬ 11 + i < 8 by omega, show 11 + i < 16 by omega]

theorem State.status_errCode : s.status.extractLsb' 16 4 = s.errCode.number :=
  extractLsb'_eq_of_getLsbD fun i hi => by
    rw [s.getLsbD_status (by omega)]
    simp [show ¬ 16 + i < 8 by omega, show ¬ 16 + i < 11 by omega, show 16 + i < 20 by omega]

theorem State.status_oss : s.status.extractLsb' 20 2 = s.oss :=
  extractLsb'_eq_of_getLsbD fun i hi => by
    rw [s.getLsbD_status (by omega)]
    simp [show ¬ 20 + i < 8 by omega, show ¬ 20 + i < 11 by omega, show ¬ 20 + i < 16 by omega]

theorem State.status_reserved : s.status.extractLsb' 22 10 = 0 :=
  extractLsb'_eq_of_getLsbD fun i hi => by
    rw [s.getLsbD_status (by omega)]
    simp [show ¬ 22 + i < 8 by omega, show ¬ 22 + i < 11 by omega, show ¬ 22 + i < 16 by omega,
      show ¬ 22 + i < 20 by omega, BitVec.getLsbD_of_ge s.oss (22 + i - 20) (by omega)]

theorem State.status_flag {i : Nat} (hi : i < 8) : s.status.getLsbD i = s.flags.getD i false := by
  rw [s.getLsbD_status (by omega), if_pos hi]

end

theorem status_reset : State.reset.status = 0 := by decide

/-- Settles O40: field by field, with the codes of R20 and R230. -/
theorem statusLayout : Obligations.StatusLayout := by
  intro s
  have flag {i : Nat} (hi : i < 8) := s.status_flag hi
  refine ⟨flag (i := 0) (by decide), flag (i := 1) (by decide), flag (i := 2) (by decide), flag (i := 3) (by decide),
    flag (i := 4) (by decide), flag (i := 5) (by decide), flag (i := 6) (by decide), flag (i := 7) (by decide),
    s.status_phase, s.status_bufPtr, s.status_errCode, s.status_oss, s.status_reserved, s.phase.code_le,
    s.errCode.number_le, State.Inv.pointer, status_reset, ?_, ?_, ?_⟩
  · rw [flag (i := 0) (by decide)]; exact s.busy_iff
  · simp only [s.status_phase]
    refine ⟨?_, ?_, ?_, ?_, ?_, ?_, ?_⟩ <;> exact fun h => by rw [h]; rfl
  · simp only [s.status_errCode]
    refine ⟨?_, ?_, ?_, ?_, ?_, ?_, ?_, ?_, ?_, ?_, ?_⟩ <;> exact fun h => by rw [h]; rfl

/-- At reset no data register holds a value (R42, R43, R61). -/
theorem regView_reset_of_data {n : RegNum}
    (hn : (0x04 ≤ n.toNat ∧ n.toNat ≤ 0x12) ∨ (0x20 ≤ n.toNat ∧ n.toNat ≤ 0x35)) :
    State.reset.regView n = .invalid := by
  have hstatus : n.toNat ≠ 0x01 ∧ n.toNat ≠ 0x02 ∧ n.toNat ≠ 0x03 := by omega
  simp only [State.regView, hstatus, if_false]
  split_ifs
  iterate 6 · rfl
  · omega

/-- A read's ERRINFO is the register number alone (R39). -/
theorem regFaultInfo_read (n : RegNum) : regFaultInfo false n = n.setWidth 32 := by
  simp [regFaultInfo, flagAt, fieldAt]

/-- Settles O50: every data register is invalid at reset, and the fault is the first one. -/
theorem resetStateReads : Obligations.ResetStateReads := by
  refine ⟨status_reset, rfl, bufValid_reset, rfl, fun n hn => ?_⟩
  rw [State.regRead, regView_reset_of_data hn, ← regFaultInfo_read]
  rfl

end Sys2Proof.Machine
end

section
/-! PROOFS. What the host's reads and writes of its registers do (R39, R41, R61 to R63). -/

namespace Sys2Proof.Machine

/-- Fault entry as one state: ERR is set, and the other two fields change for a first fault only (R231). -/
theorem State.raise_eq (s : State) (c : FaultCode) (w : Word) :
    s.raise c w = { s with
      err := true, errCode := if s.err then s.errCode else c, errInfo := if s.err then s.errInfo else w } := by
  cases he : s.err with
  | false => rw [State.raise_first he]; rfl
  | true => rw [State.raise_again he, if_pos rfl, if_pos rfl, ← he]

/-- A write's ERRINFO is the register number with bit 8 set (R39). -/
theorem regFaultInfo_write (n : RegNum) : regFaultInfo true n = 0x100 ||| n.setWidth 32 := by
  simp [regFaultInfo, flagAt, fieldAt]

section
variable {s : State} {n : RegNum} {p : List HostAction} {ts : List Turn}

/-! What each register number reads as (R61) -/

/-- A coefficient reads widened by its signedness: those at 0x0B to 0x0D are AC4 to AC6, the unsigned ones (R29, R41). -/
theorem widenCal_regNum (hlo : 0x08 ≤ n.toNat) (v : BitVec 16) :
    widenCal (n.toNat - 8) v = if n = 0x0B ∨ n = 0x0C ∨ n = 0x0D then v.setWidth 32 else v.signExtend 32 := by
  have hunsigned : calUnsigned (n.toNat - 8) = true ↔ n = 0x0B ∨ n = 0x0C ∨ n = 0x0D := by
    simp only [calUnsigned, Bool.or_eq_true, beq_iff_eq, BitVec.ofNat_eq_ofNat, ← BitVec.toNat_inj,
      BitVec.toNat_ofNat, Nat.reducePow, Nat.reduceMod]
    omega
  simp only [widenCal, hunsigned]

theorem State.regView_cal (s : State) (hlo : 0x08 ≤ n.toNat) (hhi : n.toNat ≤ 0x12) :
    s.regView n = .ofData (s.cal.bind fun c => (c.reg (n.toNat - 8)).map fun v =>
      if n = 0x0B ∨ n = 0x0C ∨ n = 0x0D then v.setWidth 32 else v.signExtend 32) := by
  simp (disch := omega) only [State.regView, if_pos, if_neg, ← widenCal_regNum hlo, Option.map_bind,
    Function.comp_def]

theorem State.regView_buf (s : State) (hlo : 0x20 ≤ n.toNat) (hhi : n.toNat ≤ 0x35) :
    s.regView n = .ofData ((s.buf.read (n.toNat - 0x20)).map (·.setWidth 32)) := by
  simp (disch := omega) only [State.regView, if_pos, if_neg]

theorem State.regView_unassigned (s : State)
    (hn : n = 0x00 ∨ (0x13 ≤ n.toNat ∧ n.toNat ≤ 0x1F) ∨ 0x36 ≤ n.toNat) : s.regView n = .unassigned := by
  simp only [BitVec.ofNat_eq_ofNat, ← BitVec.toNat_inj, BitVec.toNat_ofNat, Nat.reducePow, Nat.zero_mod] at hn
  simp (disch := omega) only [State.regView, if_neg]

/-! What a register read does with each of the three (R62) -/

theorem State.regRead_of_value {v : Word} (h : s.regView n = .value v) : s.regRead n = s.receive n v := by
  simp only [State.regRead, h]

theorem State.regRead_of_invalid (h : s.regView n = .invalid) : s.regRead n = s.faultingRead .readInvalid n := by
  simp only [State.regRead, h]

theorem State.regRead_of_unassigned (h : s.regView n = .unassigned) :
    s.regRead n = s.faultingRead .badRegister n := by
  simp only [State.regRead, h]

/-- A faulting read as one state: a draw for the value, and the number in ERRINFO for a first fault (R39, R62, R231). -/
theorem State.faultingRead_eq (s : State) (c : FaultCode) (n : RegNum) :
    s.faultingRead c n = { s with
      reads := s.reads ++ [⟨n, Config.drawWord s.draws⟩], draws := s.draws + 1, err := true,
      errCode := if s.err then s.errCode else c, errInfo := if s.err then s.errInfo else n.setWidth 32 } := by
  rw [State.faultingRead, State.raise_eq, regFaultInfo_read]; rfl

/-! The step of a host whose next action is an access (R72, R99) -/

section
variable (ht : s.turns = .host :: ts)
include ht

theorem step_of_host_turn : step s = hostTurn { s with turns := ts } := by
  rw [step, ht]; rfl

theorem step_of_host_read (hh : s.host = .read n :: p) :
    step s = .next (State.regRead { s with host := p, turns := ts } n) := by
  simp only [step_of_host_turn ht, hostTurn, hh]

theorem step_of_host_write {v : Word} (hh : s.host = .write n v :: p) :
    step s = regWrite n v { s with host := p, turns := ts } := by
  simp only [step_of_host_turn ht, hostTurn, hh]

end

end

/-- Settles O42: what the register map holds at the number decides between a value and one of the two faults. -/
theorem hostReads : Obligations.HostReads := by
  intro s n p ts ht hh r gets faults data
  have hread : step s = .next (r.regRead n) := step_of_host_read ht hh
  have hgets {v : Word} (hv : s.regView n = .value v) : gets v := by
    rw [State.regRead_of_value (s := r) hv] at hread
    exact hread
  have hfaults {c : FaultCode} (hc : r.regRead n = r.faultingRead c n) : faults c := by
    rw [hc, State.faultingRead_eq] at hread
    exact hread
  have hdata {o : Option Word} (hv : s.regView n = .ofData o) : data o := by
    cases o with
    | some v => exact hgets hv
    | none => exact hfaults (State.regRead_of_invalid (s := r) hv)
  refine ⟨?status, ?errInfo, ?bufValid, ?ut, ?up, ?t, ?p, ?cal, ?buf, ?other⟩
  case status => rintro rfl; exact hgets rfl
  case errInfo => rintro rfl; exact hgets rfl
  case bufValid => rintro rfl; exact hgets rfl
  case ut => rintro rfl; exact hdata rfl
  case up => rintro rfl; exact hdata rfl
  case t => rintro rfl; exact hdata rfl
  case p => rintro rfl; exact hdata rfl
  case cal => exact fun hlo hhi => hdata (s.regView_cal hlo hhi)
  case buf => exact fun hlo hhi => hdata (s.regView_buf hlo hhi)
  case other => exact fun hn => hfaults (State.regRead_of_unassigned (s := r) (s.regView_unassigned hn))

/-- Settles O43: CMD is the only writable register. -/
theorem hostWrites : Obligations.HostWrites := by
  intro s n v p ts ht hh r
  have hwrite : step s = regWrite n v r := step_of_host_write ht hh
  refine ⟨fun hn => ?_, fun hn => ?_⟩
  · rw [hwrite, regWrite, regCmd, if_pos hn]
  · rw [hwrite, regWrite, regCmd, if_neg hn, State.raise_eq, regFaultInfo_write]

end Sys2Proof.Machine
end

section
/-! PROOFS. The opcode map read field by field, the encoder as the inverse of the decoder, and the words that spell no
command (R91 to R97, R100). -/

namespace Sys2Proof

/-! A word is its five fields (R91) -/

theorem commandWord_fields (w : Word) :
    commandWord (opField w) (rsvField w) (cntField w) (regField w) (dataField w) = w := by
  apply BitVec.eq_of_getLsbD_eq
  intro i hi
  rw [getLsbD_commandWord _ _ _ _ _ hi]
  simp only [opField, rsvField, cntField, regField, dataField, BitVec.getLsbD_extractLsb']
  split_ifs with h1 h2 h3 h4
  · simp [h1]
  · simp [show i - 8 < 8 by omega, show 8 + (i - 8) = i by omega]
  · simp [show i - 16 < 8 by omega, show 16 + (i - 16) = i by omega]
  · simp [show i - 24 < 4 by omega, show 24 + (i - 24) = i by omega]
  · simp [show i - 28 < 4 by omega, show 28 + (i - 28) = i by omega]

theorem eq_commandWord_iff {w : Word} {op rsv : BitVec 4} {cnt reg data : Byte} :
    w = commandWord op rsv cnt reg data ↔
      opField w = op ∧ rsvField w = rsv ∧ cntField w = cnt ∧ regField w = reg ∧ dataField w = data := by
  constructor
  · rintro rfl
    exact ⟨opField_commandWord .., rsvField_commandWord .., cntField_commandWord .., regField_commandWord ..,
      dataField_commandWord ..⟩
  · rintro ⟨rfl, rfl, rfl, rfl, rfl⟩
    exact (commandWord_fields w).symm

theorem and_commandWord (w : Word) (op rsv : BitVec 4) (cnt reg data : Byte) :
    w &&& commandWord op rsv cnt reg data =
      commandWord (opField w &&& op) (rsvField w &&& rsv) (cntField w &&& cnt) (regField w &&& reg)
        (dataField w &&& data) :=
  eq_commandWord_iff.2
    ⟨BitVec.extractLsb'_and.trans (congrArg _ (opField_commandWord ..)),
     BitVec.extractLsb'_and.trans (congrArg _ (rsvField_commandWord ..)),
     BitVec.extractLsb'_and.trans (congrArg _ (cntField_commandWord ..)),
     BitVec.extractLsb'_and.trans (congrArg _ (regField_commandWord ..)),
     BitVec.extractLsb'_and.trans (congrArg _ (dataField_commandWord ..))⟩

theorem and_0xF (v : BitVec 4) : v &&& 0xF = v := BitVec.and_allOnes

theorem and_0xFF (v : Byte) : v &&& 0xFF = v := BitVec.and_allOnes

/-- Every mask covers OP and RSV, and every match is an opcode alone, so a row's test is a test of the fields (R92). -/
theorem and_mask_eq_match_iff {w : Word} (op : BitVec 4) (cnt reg data : Byte) :
    w &&& commandWord 0xF 0xF cnt reg data = commandWord op 0 0 0 0 ↔
      opField w = op ∧ rsvField w = 0 ∧ cntField w &&& cnt = 0 ∧ regField w &&& reg = 0 ∧
      dataField w &&& data = 0 := by
  rw [and_commandWord, eq_commandWord_iff, opField_commandWord, rsvField_commandWord, cntField_commandWord,
    regField_commandWord, dataField_commandWord, and_0xF, and_0xF]

/-- The two low bits of a DATA field whose other bits are zero are the setting (R94). -/
theorem and_0xFC_eq_zero_and_iff {d : Byte} {oss : BitVec 2} :
    d &&& 0xFC = 0 ∧ d.extractLsb' 0 2 = oss ↔ d = oss.setWidth 8 := by
  constructor
  · rintro ⟨hd, rfl⟩
    revert d; decide
  · rintro rfl
    revert oss; decide

/-! No two rows share an opcode (R92) -/

theorem opField_mask {r : OpRow} (hr : r ∈ opRows) : opField r.mask = 0xF := by
  revert r; simp [opRows, primitiveRows, compositeRows, datapathRows, opField]

theorem opRows_opcodes_nodup : (opRows.map fun r => opField r.pattern).Nodup := by decide

/-- A word meets only a row of its own opcode. -/
theorem opField_pattern_of_spells {r : OpRow} {w : Word} (hr : r ∈ opRows) (h : r.spells w = true) :
    opField r.pattern = opField w :=
  calc opField r.pattern
    _ = opField (w &&& r.mask) := by rw [beq_iff_eq.1 h]
    _ = opField w &&& opField r.mask := BitVec.extractLsb'_and
    _ = opField w := by rw [opField_mask hr, and_0xF]

theorem OpRow.eq_of_spells {r r' : OpRow} {w : Word} (hr : r ∈ opRows) (hr' : r' ∈ opRows) (h : r.spells w = true)
    (h' : r'.spells w = true) : r = r' :=
  List.inj_on_of_nodup_map opRows_opcodes_nodup hr hr'
    ((opField_pattern_of_spells hr h).trans (opField_pattern_of_spells hr' h').symm)

/-- Settles O3: each row that a word meets has the word's opcode, and that opcode stands in one row. -/
theorem opcodeRowsExcludeEachOther : Obligations.OpcodeRowsExcludeEachOther := fun w =>
  calc opRows.countP (·.spells w)
    _ ≤ opRows.countP (fun r => opField r.pattern == opField w) :=
      List.countP_mono_left fun _ hr h => beq_iff_eq.2 (opField_pattern_of_spells hr h)
    _ = (opRows.map fun r => opField r.pattern).count (opField w) := by
      rw [List.count_eq_countP, List.countP_map]; rfl
    _ ≤ 1 := List.nodup_iff_count_le_one.1 opRows_opcodes_nodup _

/-! Decoding and encoding (R97) -/

/-- The decoder answers what the row that the word meets builds. -/
theorem decode_eq_ok_iff {w : Word} {i : Instr} :
    decode w = .ok i ↔ ∃ r ∈ opRows, r.spells w = true ∧ r.build w = i := by
  unfold decode
  cases hf : opRows.find? (·.spells w) with
  | none =>
    rw [List.find?_eq_none] at hf
    simp only [reduceCtorEq, false_iff, not_exists, not_and]
    exact fun r hr hs => absurd hs (hf r hr)
  | some r =>
    have hr : r ∈ opRows := List.mem_of_find?_eq_some hf
    have hs : r.spells w = true := by simpa using List.find?_some hf
    constructor
    · exact fun h => ⟨r, hr, hs, Except.ok.inj h⟩
    · rintro ⟨r', hr', hs', rfl⟩
      rw [OpRow.eq_of_spells hr' hr hs' hs]

/-! Each row of the opcode map: its test and its operands are the command's encoding (R92, R94) -/

section
variable {w : Word}

theorem and_full_mask_eq_iff {p : Word} : w &&& 0xFFFFFFFF = p ↔ w = p := by
  rw [show (0xFFFFFFFF : Word) = BitVec.allOnes 32 from rfl, BitVec.and_allOnes]

theorem write_row_iff {b : Byte} : w &&& 0xFFFFFF00 = 0x40000000 ∧ dataField w = b ↔ w = encode (.write b) := by
  have hrow : w &&& 0xFFFFFF00 = 0x40000000 ↔ _ := and_mask_eq_match_iff 0x4 0xFF 0xFF 0
  rw [hrow, encode, eq_commandWord_iff, and_0xFF, and_0xFF]
  simp [and_assoc]

theorem wrreg_row_iff {reg val : Byte} :
    w &&& 0xFFFF0000 = 0x80000000 ∧ regField w = reg ∧ dataField w = val ↔ w = encode (.wrreg reg val) := by
  have hrow : w &&& 0xFFFF0000 = 0x80000000 ↔ _ := and_mask_eq_match_iff 0x8 0xFF 0 0
  rw [hrow, encode, eq_commandWord_iff, and_0xFF]
  simp [and_assoc]

theorem rdblk_row_iff {reg count : Byte} :
    w &&& 0xFF0000FF = 0x90000000 ∧ regField w = reg ∧ cntField w = count ↔ w = encode (.rdblk reg count) := by
  have hrow : w &&& 0xFF0000FF = 0x90000000 ↔ _ := and_mask_eq_match_iff 0x9 0 0 0xFF
  rw [hrow, encode, eq_commandWord_iff, and_0xFF]
  simp [and_assoc, and_left_comm, and_comm]

theorem setoss_row_iff {oss : BitVec 2} :
    w &&& 0xFFFFFFFC = 0xA0000000 ∧ w.extractLsb' 0 2 = oss ↔ w = encode (.setoss oss) := by
  have hrow : w &&& 0xFFFFFFFC = 0xA0000000 ↔ _ := and_mask_eq_match_iff 0xA 0xFF 0xFF 0xFC
  have hoss : w.extractLsb' 0 2 = (dataField w).extractLsb' 0 2 :=
    (BitVec.extractLsb'_extractLsb'_of_le (by decide)).symm
  simp only [hrow, hoss, encode, eq_commandWord_iff, and_0xFF, and_assoc, ← and_0xFC_eq_zero_and_iff]

/-- A word meets a row that builds the command exactly when it is the command's encoding. -/
theorem exists_row_iff_eq_encode {i : Instr} :
    (∃ r ∈ opRows, r.spells w = true ∧ r.build w = i) ↔ w = encode i := by
  simp only [opRows, primitiveRows, compositeRows, datapathRows, List.cons_append, List.nil_append,
    List.exists_mem_cons_iff, List.not_mem_nil, false_and, exists_false, or_false, OpRow.spells, beq_iff_eq]
  cases i with
  | write b => simpa using write_row_iff
  | wrreg reg val => simpa using wrreg_row_iff
  | rdblk reg count => simpa using rdblk_row_iff
  | setoss oss => simpa using setoss_row_iff
  | _ => simpa [encode, commandWord, fieldAt] using and_full_mask_eq_iff

end

/-- Settles O1: the row that the word meets builds a command, and the word is that command's encoding. -/
theorem decodeAndEncodeAgree : Obligations.DecodeAndEncodeAgree :=
  fun _ _ => decode_eq_ok_iff.trans exists_row_iff_eq_encode

/-- Settles O4: each word is the command's encoding, operands in their fields. -/
theorem exampleWordsDecode : Obligations.ExampleWordsDecode := by
  simp only [Obligations.ExampleWordsDecode, decodeAndEncodeAgree _ _]
  decide

/-! The words that spell a command (R93, R95) -/

theorem wellFormedWord_encode (i : Instr) : wellFormedWord (encode i) = true := by
  cases i with
  | start => exact Laws.Spelling.start
  | restart => exact Laws.Spelling.restart
  | stop => exact Laws.Spelling.stop
  | write b => exact Laws.Spelling.write b
  | read => exact Laws.Spelling.read
  | ack => exact Laws.Spelling.ack
  | nack => exact Laws.Spelling.nack
  | wrreg reg val => exact Laws.Spelling.wrreg reg val
  | rdblk reg count => exact Laws.Spelling.rdblk reg count
  | setoss oss => exact Laws.Spelling.setoss oss
  | loadcal => exact Laws.Spelling.loadcal
  | loadut => exact Laws.Spelling.loadut
  | loadup => exact Laws.Spelling.loadup
  | comp => exact Laws.Spelling.comp

/-- Each assigned opcode that is not an operand command's has a command without operands (R92). -/
theorem exists_encode_eq_opcode {op : BitVec 4} (h : op ∉ [0x0, 0x4, 0x8, 0x9, 0xA, 0xF]) :
    ∃ i ∈ [Instr.start, .restart, .stop, .read, .ack, .nack, .loadcal, .loadut, .loadup, .comp],
      encode i = commandWord op 0 0 0 0 := by
  revert op; decide

theorem eq_setWidth_of_extractLsb'_eq_zero {d : Byte} (h : d.extractLsb' 2 6 = 0) :
    d = (d.extractLsb' 0 2).setWidth 8 := by
  revert d; decide

theorem exists_eq_encode_of_wellFormedWord {w : Word} (h : wellFormedWord w = true) : ∃ i, w = encode i := by
  simp only [wellFormedWord, assignedOp, mustBeZeroHolds, Bool.and_eq_true, bne_iff_ne, beq_iff_eq] at h
  obtain ⟨⟨h0, hF⟩, hrsv, hzero⟩ := h
  split at hzero
  · next hop =>
    simp only [Bool.and_eq_true, beq_iff_eq] at hzero
    exact ⟨.write (dataField w), eq_commandWord_iff.2 ⟨hop, hrsv, hzero.1, hzero.2, rfl⟩⟩
  · next hop =>
    exact ⟨.wrreg (regField w) (dataField w), eq_commandWord_iff.2 ⟨hop, hrsv, beq_iff_eq.1 hzero, rfl, rfl⟩⟩
  · next hop =>
    exact ⟨.rdblk (regField w) (cntField w), eq_commandWord_iff.2 ⟨hop, hrsv, rfl, rfl, beq_iff_eq.1 hzero⟩⟩
  · next hop =>
    simp only [Bool.and_eq_true, beq_iff_eq] at hzero
    obtain ⟨⟨hcnt, hreg⟩, hdata⟩ := hzero
    exact ⟨.setoss _, eq_commandWord_iff.2 ⟨hop, hrsv, hcnt, hreg, eq_setWidth_of_extractLsb'_eq_zero hdata⟩⟩
  · next h4 h8 h9 hA =>
    simp only [Bool.and_eq_true, beq_iff_eq] at hzero
    obtain ⟨⟨hcnt, hreg⟩, hdata⟩ := hzero
    obtain ⟨i, -, hi⟩ := exists_encode_eq_opcode (op := opField w) (by
      simp only [List.mem_cons, List.not_mem_nil, or_false, not_or]
      exact ⟨h0, h4, h8, h9, hA, hF⟩)
    exact ⟨i, hi ▸ eq_commandWord_iff.2 ⟨rfl, hrsv, hcnt, hreg, hdata⟩⟩

theorem wellFormedWord_iff_exists_decode {w : Word} : wellFormedWord w = true ↔ ∃ i, decode w = .ok i := by
  simp only [decodeAndEncodeAgree w _]
  constructor
  · exact exists_eq_encode_of_wellFormedWord
  · rintro ⟨i, rfl⟩
    exact wellFormedWord_encode i

/-- Adjacent fields are zero together. -/
theorem extractLsb'_add_eq_zero_iff (w : Word) (lo m n : Nat) :
    w.extractLsb' lo (n + m) = 0 ↔ w.extractLsb' (lo + m) n = 0 ∧ w.extractLsb' lo m = 0 := by
  rw [← BitVec.extractLsb'_append_extractLsb'_eq_extractLsb' rfl]
  simp [← BitVec.toNat_inj, BitVec.toNat_append, Nat.shiftLeft_eq_zero_iff, -BitVec.extractLsb'_toNat]

/-- The must-be-zero bits of each opcode, as runs of bits (R93). -/
theorem wellFormedWord_eq_false_iff (w : Word) :
    wellFormedWord w = false ↔
      opField w = 0x0 ∨ opField w = 0xF ∨ rsvField w ≠ 0 ∨
      (opField w = 0x4 ∧ w.extractLsb' 8 16 ≠ 0) ∨
      (opField w = 0x8 ∧ cntField w ≠ 0) ∨
      (opField w = 0x9 ∧ dataField w ≠ 0) ∨
      (opField w = 0xA ∧ w.extractLsb' 2 22 ≠ 0) ∨
      (opField w ∉ [0x4, 0x8, 0x9, 0xA] ∧ w.extractLsb' 0 24 ≠ 0) := by
  have h16 : w.extractLsb' 8 16 = 0 ↔ cntField w = 0 ∧ regField w = 0 := extractLsb'_add_eq_zero_iff w 8 8 8
  have h22 : w.extractLsb' 2 22 = 0 ↔ w.extractLsb' 8 16 = 0 ∧ (dataField w).extractLsb' 2 6 = 0 := by
    rw [dataField, BitVec.extractLsb'_extractLsb'_of_le (by decide)]
    exact extractLsb'_add_eq_zero_iff w 2 6 16
  have h24 : w.extractLsb' 0 24 = 0 ↔ w.extractLsb' 8 16 = 0 ∧ dataField w = 0 :=
    extractLsb'_add_eq_zero_iff w 0 8 16
  rw [← Bool.not_eq_true]
  simp only [wellFormedWord, assignedOp, mustBeZeroHolds, ne_eq, h16, h22, h24]
  split
  iterate 4 · next hop => simp [hop, imp_iff_not_or]
  · next h4 h8 h9 hA =>
    simp [show opField w ≠ 4#4 from h4, show opField w ≠ 8#4 from h8, show opField w ≠ 9#4 from h9,
      show opField w ≠ 10#4 from hA, imp_iff_not_or, or_assoc]

end Sys2Proof
end

section
/-! PROOFS. What the issue of an illegal word does, the host's actions of a pseudo-instruction, and a turn of the host at
a POLL or a DELAY (R95, R99, R101). -/

namespace Sys2Proof.Machine

/-- With no fault and not busy, a word that spells no command is the fault of R95 and nothing else (R120). -/
theorem issue_of_wellFormedWord_eq_false {w : Word} {s : State} (hw : wellFormedWord w = false) (hs : s.ready = true) :
    issue w s = .next (s.faultedWith .illegalCommand w) := by
  obtain ⟨herr, -⟩ := State.ready_iff.1 hs
  rcases issue_cases w s with ⟨i, hi, -⟩ | ⟨e, -, ho⟩
  · rw [wellFormedWord_iff_exists_decode.2 ⟨i, hi⟩] at hw
    cases hw
  · rw [ho, issueIllegal, issueGuard_ready hs, State.raise_first herr]

/-- Settles O2: the illegal words are the ones that are not well formed. -/
theorem illegalWordsFaultAndNothingElse : Obligations.IllegalWordsFaultAndNothingElse := by
  intro w op illegal
  have hillegal : illegal ↔ wellFormedWord w = false := (wellFormedWord_eq_false_iff w).symm
  constructor
  · rw [hillegal, ← Bool.not_eq_true, wellFormedWord_iff_exists_decode, not_exists]
  · exact fun h s hs => issue_of_wellFormedWord_eq_false (hillegal.1 h) hs

/-- The setting stands in bits 7 and 6 of the control byte (R101). -/
theorem encode_wrreg_cmdPres (o : BitVec 2) :
    encode (.wrreg Config.regCtrl (Config.cmdPres o)) = 0x8000F434 ||| (o.setWidth 32 <<< 6) := by
  revert o; decide

theorem acqtActions_eq (w : Config.Waits) :
    acqtActions w = [.write 0 0x8000F42E, .poll, .delay w.temp, .write 0 0x9002F600, .poll, .write 0 0xC0000000] := rfl

theorem acqpActions_eq (w : Config.Waits) (o : BitVec 2) :
    acqpActions w o = [.write 0 (0x8000F434 ||| (o.setWidth 32 <<< 6)), .poll, .delay (w.pres o),
      .write 0 0x9003F600, .poll, .write 0 0xD0000000] := by
  rw [acqpActions, issueAction, encode_wrreg_cmdPres]; rfl

/-- Settles O5: the command byte of ACQP is the only word that depends on the setting. -/
theorem pseudoInstructionsExpand : Obligations.PseudoInstructionsExpand := by
  intro w o acqt acqp
  have hacqt : acqtActions w = acqt := acqtActions_eq w
  have hacqp : acqpActions w o = acqp := acqpActions_eq w o
  refine ⟨rfl, rfl, rfl, hacqt, hacqp, ?_⟩
  rw [Stmt.actions, hacqt, hacqp]; rfl

theorem State.regRead_status (s : State) : s.regRead regStatus = s.receive regStatus s.status :=
  State.regRead_of_value rfl

section
variable {s : State} {p : List HostAction} {ts : List Turn} (ht : s.turns = .host :: ts)
include ht

theorem step_of_host_poll (hh : s.host = .poll :: p) :
    step s = .next (State.receive { s with turns := ts, host := if s.busy then s.host else p } regStatus s.status) := by
  simp only [step_of_host_turn ht, hostTurn, hh, State.regRead_status]
  change Host.Outcome.next (if s.busy then _ else _) = _
  cases s.busy <;> rfl

theorem step_of_host_delay {t : Nat} (hh : s.host = .delay t :: p) :
    step s = .next { s with host := p, turns := ts } := by
  simp only [step_of_host_turn ht, hostTurn, hh]

end

/-- Settles O44: STATUS always reads as a value, and BUSY is read from the state that the turn finds. -/
theorem pollWaitsForBusy : Obligations.PollWaitsForBusy :=
  fun _ _ _ ht => ⟨step_of_host_poll ht, fun _ => step_of_host_delay ht⟩

end Sys2Proof.Machine
end

section
/-! PROOFS. The framing primitives: the checks every command word meets first, what an accepted command queues, and what
the completion of its micro-op does (R120 to R131, R232). -/

namespace Sys2Proof.Machine

/-! Issue (R120) -/

/-- The phases of the datapath commands are all but HUNG (R170). -/
theorem Phase.mem_of_ne_hung {ph : Phase} (h : ph ≠ .hung) : ph ∈ [Phase.idle, .addr, .mtx, .mrx, .mrxAck, .mrxEnd] := by
  cases ph with
  | hung => exact absurd rfl h
  | _ => decide

/-- Every command passes the guard of `Issue`, and the next check is that of its phase (R120). -/
theorem exec_eq_issueGuard (i : Instr) (s : State) :
    ∃ b, exec i s = issueGuard (encode i) s b ∧
      (s.phase ≠ .hung → s.phase ∉ legalPhases i → b = s.raise .sequence (encode i)) := by
  cases i with
  | setoss | loadcal | loadut | loadup | comp => exact ⟨_, rfl, fun hp hn => absurd (Phase.mem_of_ne_hung hp) hn⟩
  | _ => exact ⟨_, rfl, fun _ hn => if_neg hn⟩

theorem exec_err (i : Instr) {s : State} (he : s.err = true) : exec i s = .next s := by
  obtain ⟨b, hb, -⟩ := exec_eq_issueGuard i s
  rw [hb, issueGuard_err he]

theorem exec_busy (i : Instr) {s : State} (he : s.err = false) (hb : s.busy = true) :
    exec i s = .next (s.faultedWith .busyCollision (encode i)) := by
  obtain ⟨b, hexec, -⟩ := exec_eq_issueGuard i s
  rw [hexec, issueGuard_busy he hb]

theorem exec_out_of_phase {i : Instr} {s : State} (hr : s.ready = true) (hp : s.phase ∉ legalPhases i) :
    exec i s = .next (s.faultedWith .sequence (encode i)) := by
  obtain ⟨he, -, hh⟩ := State.ready_iff.1 hr
  obtain ⟨b, hexec, hseq⟩ := exec_eq_issueGuard i s
  rw [hexec, issueGuard_ready hr, hseq hh hp, State.raise_first he]

/-- A bus command in a legal phase whose own check fails (R120). -/
theorem issueBus_refused {i : Instr} {c : FaultCode} {ops : List MicroOp} {s : State} (hr : s.ready = true)
    (hp : s.phase ∈ legalPhases i) : issueBus i (some c) ops s = .next (s.faultedWith c (encode i)) := by
  obtain ⟨he, -⟩ := State.ready_iff.1 hr
  rw [issueBus, issueGuard_ready hr, if_pos hp, State.raise_first he]

/-! Every word (R120, R232) -/

theorem issue_of_decode {w : Word} {i : Instr} (h : decode w = .ok i) (s : State) : issue w s = exec i s := by
  rw [issue, h]

theorem issue_of_decode_error {w : Word} {e : Illegal} (h : decode w = .error e) (s : State) :
    issue w s = issueGuard w s (s.raise .illegalCommand w) := by
  rw [issue, h, issueIllegal]

/-- Every word passes the same guard (R120). -/
theorem issue_eq_issueGuard (w : Word) (s : State) : ∃ b, issue w s = issueGuard w s b := by
  cases hd : decode w with
  | error e => exact ⟨_, issue_of_decode_error hd s⟩
  | ok i =>
    obtain ⟨b, hb, -⟩ := exec_eq_issueGuard i s
    exact ⟨b, by rw [issue_of_decode hd, hb, (decodeAndEncodeAgree w i).1 hd]⟩

/-- Settles O8: the guard decides for a fault and for BUSY, the decoder next, and then the command's phase. -/
theorem everyWordMeetsTheSameChecks : Obligations.EveryWordMeetsTheSameChecks := by
  intro w s
  obtain ⟨b, hguard⟩ := issue_eq_issueGuard w s
  refine ⟨fun he => ?_, fun he hb => ?_, fun he hq hp => ?_⟩
  · rw [hguard, issueGuard_err he]
  · rw [hguard, issueGuard_busy he (s.busy_iff.2 hb)]; rfl
  · have hr : s.ready = true := State.ready_iff.2 ⟨he, hq, hp⟩
    refine ⟨fun e hd => ?_, fun i hd hn => ?_⟩
    · rw [issue_of_decode_error hd, issueGuard_ready hr, State.raise_first he]; rfl
    · rw [issue_of_decode hd, exec_out_of_phase hr hn, (decodeAndEncodeAgree w i).1 hd]; rfl

/-- A word that meets a row spells the row's command, and a word of its opcode that differs under the row's mask meets no
row, because each opcode stands in one (R92, R95). -/
theorem spelledAndGuarded_of_row {r : OpRow} {i : Instr} {w : Word} (hr : r ∈ opRows) (hw : r.spells w = true)
    (hi : r.build w = i) : SpelledAndGuarded i w r.mask := by
  have hdec : decode w = .ok i := decode_eq_ok_iff.2 ⟨r, hr, hw, hi⟩
  refine ⟨hdec, fun s => ⟨exec_err _, fun he hb => ?_⟩, fun v s hs hop hne => ?_⟩
  · rw [exec_busy _ he hb, ← (decodeAndEncodeAgree w _).1 hdec]; rfl
  · cases hv : decode v with
    | error e =>
      rw [issue_of_decode_error hv, issueGuard_ready hs, State.raise_first (State.ready_iff.1 hs).1]; rfl
    | ok j =>
      obtain ⟨r', hr', hv', -⟩ := decode_eq_ok_iff.1 hv
      obtain rfl : r = r' := List.inj_on_of_nodup_map opRows_opcodes_nodup hr hr' <|
        calc opField r.pattern
          _ = opField w := opField_pattern_of_spells hr hw
          _ = opField v := hop.symm
          _ = opField r'.pattern := (opField_pattern_of_spells hr' hv').symm
      have hsame : v &&& r.mask = w &&& r.mask := by rw [beq_iff_eq.1 hv', beq_iff_eq.1 hw]
      exact absurd hsame hne

/-- Settles O6: a write to CMD is the issue of its word. -/
theorem stepRunsTheDecodedCommand : Obligations.StepRunsTheDecodedCommand := by
  intro s w i p ts ht hh hd
  rw [step_of_host_write ht hh, regWrite, regCmd, if_pos rfl, issue_of_decode hd]

/-! Completion (R121) -/

theorem step_of_bus_turn {s : State} {a : Answer} {ts : List Turn} (ht : s.turns = .bus a :: ts) :
    step s = complete a { s with turns := ts } := by
  rw [step, ht]; rfl

/-- Settles O7: the turn at the head of the list decides, and the head of the queue. -/
theorem stepTakesTheAgentsTurn : Obligations.StepTakesTheAgentsTurn := by
  refine fun s => ⟨fun ht => ?_, fun a ts => step_of_bus_turn, fun a hq => ?_⟩
  · rw [step, ht]
  · rw [complete, hq]

theorem complete_of_mq {s : State} {u : MicroOp} {us : List MicroOp} (hq : s.mq = u :: us) (a : Answer) :
    complete a s = completeOp u a { s with mq := us } := by
  rw [complete, hq]

/-! The framing primitives (R123 to R131) -/

/-- Settles O10: uSTART takes every scratch byte's value. -/
theorem startIssuesAndCompletes : Obligations.StartIssuesAndCompletes :=
  ⟨spelledAndGuarded_of_row (r := opRows[0]) (List.getElem_mem _) rfl rfl,
   fun s hr hp => issueBus_accepted hr (by simp [legalPhases, hp]),
   fun s hr hp => exec_out_of_phase hr (by simp [legalPhases, hp]),
   fun s a us hq => complete_of_mq hq a⟩

/-- Settles O11: uRESTART leaves the received bytes. -/
theorem restartIssuesAndCompletes : Obligations.RestartIssuesAndCompletes :=
  ⟨spelledAndGuarded_of_row (r := opRows[1]) (List.getElem_mem _) rfl rfl,
   fun s hr hp => issueBus_accepted hr (by simp [legalPhases, hp]),
   fun s hr hm he => exec_out_of_phase hr (by simp [legalPhases, hm, he]),
   fun s a us hq => complete_of_mq hq a⟩

/-- Settles O12: uSTOP leaves the received bytes. -/
theorem stopIssuesAndCompletes : Obligations.StopIssuesAndCompletes :=
  ⟨spelledAndGuarded_of_row (r := opRows[2]) (List.getElem_mem _) rfl rfl,
   fun s hr hp => issueBus_accepted hr (by simp [legalPhases, hp]),
   fun s hr hm he => exec_out_of_phase hr (by simp [legalPhases, hm, he]),
   fun s a us hq => complete_of_mq hq a⟩

/-- Settles O15: ACK is legal only after a received byte. -/
theorem ackIssuesAndCompletes : Obligations.AckIssuesAndCompletes :=
  ⟨spelledAndGuarded_of_row (r := opRows[5]) (List.getElem_mem _) rfl rfl,
   fun s hr hp => issueBus_accepted hr (by simp [legalPhases, hp]),
   fun s hr hp => exec_out_of_phase hr (by simp [legalPhases, hp]),
   fun s a us hq => complete_of_mq hq a⟩

/-- Settles O16: NACK is legal only after a received byte. -/
theorem nackIssuesAndCompletes : Obligations.NackIssuesAndCompletes :=
  ⟨spelledAndGuarded_of_row (r := opRows[6]) (List.getElem_mem _) rfl rfl,
   fun s hr hp => issueBus_accepted hr (by simp [legalPhases, hp]),
   fun s hr hp => exec_out_of_phase hr (by simp [legalPhases, hp]),
   fun s a us hq => complete_of_mq hq a⟩

theorem encode_write (b : Byte) : encode (.write b) = 0x40000000 ||| b.setWidth 32 := by
  simp [encode, commandWord, fieldAt]

/-- A byte that is refused hangs the engine and drops the queue (R126, R128). -/
theorem complete_uWrite_nack {s : State} {b : Byte} {us : List MicroOp} (hq : s.mq = .uWrite b :: us) {a : Answer}
    (ha : a.ack = .nack) :
    complete a s = .next { s with mq := [], trace := s.trace ++ [.W b .nack], nacked := true, phase := .hung } := by
  rw [complete_of_mq hq, completeOp, ha]; rfl

theorem complete_uWrite_ack {s : State} {b : Byte} {us : List MicroOp} (hq : s.mq = .uWrite b :: us) {a : Answer}
    (ha : a.ack = .ack) :
    complete a s = .next { s with
      mq := us, trace := s.trace ++ [.W b .ack], phase := phaseAfterWrite s.phase b } := by
  rw [complete_of_mq hq, completeOp, ha]; rfl

/-- Settles O13: the phase after an acknowledged byte is the one its direction bit selects. -/
theorem writeIssuesAndCompletes : Obligations.WriteIssuesAndCompletes := by
  intro b
  rw [← encode_write]
  refine ⟨?spelled, fun s hr hp => ?legal, fun s hr ha hm => ?sequence, fun s a us hq => ?completes⟩
  case spelled =>
    obtain ⟨hw, hdata⟩ := write_row_iff.2 (rfl : encode (.write b) = _)
    exact spelledAndGuarded_of_row (r := opRows[3]) (List.getElem_mem _) (beq_iff_eq.2 hw)
      (congrArg Instr.write hdata)
  case legal => exact issueBus_accepted hr (by simp [legalPhases, hp])
  case sequence => exact exec_out_of_phase hr (by simp [legalPhases, ha, hm])
  case completes =>
    refine ⟨complete_uWrite_nack hq, fun ha hp hb => ?_, fun ha hp hb => ?_, fun ha hp => ?_⟩
    · rw [complete_uWrite_ack hq ha, phaseAfterWrite, if_pos hp, if_pos hb]
    · rw [complete_uWrite_ack hq ha, phaseAfterWrite, if_pos hp, if_neg (Bool.eq_false_iff.1 hb)]
    · rw [complete_uWrite_ack hq ha, phaseAfterWrite, if_neg hp]

/-- Settles O14: BUFPTR is below the capacity, so the byte is stored, and a store leaves the other indexes as they were. -/
theorem readIssuesAndCompletes : Obligations.ReadIssuesAndCompletes := by
  refine ⟨spelledAndGuarded_of_row (r := opRows[4]) (List.getElem_mem _) rfl rfl, fun s hr hp hn => ?accepted,
    fun s hr hp hfull => ?overflow, fun s hr hp => exec_out_of_phase hr (by simp [legalPhases, hp]),
    fun s a us hq hlt => ⟨s.buf.write s.bufPtr.toNat a.byte, ?completes, Memory.read_write_same _ _ _,
      fun i hi => Memory.read_write_other _ _ hi⟩⟩
  case accepted =>
    rw [exec, execRead, if_neg hn]
    exact issueBus_accepted hr (by simp [legalPhases, hp])
  case overflow =>
    rw [exec, execRead, if_pos hfull]
    exact issueBus_refused hr (by simp [legalPhases, hp])
  case completes =>
    rw [complete_of_mq hq]
    exact if_pos hlt

end Sys2Proof.Machine
end
section
/-! PROOFS. What no issue of a command changes, what a hung engine keeps, and how BUSY falls (R120, R128, R133,
R231, R270). -/

namespace Sys2Proof.Machine

/-- Settles O30: ignored, a command changes nothing, faulted, it changes the fault fields, and accepted, the queue or the
registers that are its own. -/
theorem issueFrame : Obligations.IssueFrame := by
  intro i s
  obtain ⟨t, ht, h⟩ := exec_cases i s
  refine ⟨t, ht, ?_⟩
  cases h with
  | ignored he => simp [he]
  | faulted _ _ => simp [State.faultedWith]
  | effect hr he =>
    have herr : s.err = false := (State.ready_iff.1 hr).1
    cases he <;> simp [herr]

/-! A hung engine (R128) -/

/-- While BUSY the host can change nothing in the block but record a first fault (R120). -/
theorem HostAccess.of_busy {s t : State} (h : HostAccess s t) (hb : s.busy = true) :
    t = s ∨ ∃ c w, t = s.faultedWith c w := by
  cases h with
  | unchanged => exact .inl rfl
  | faulted _ => exact .inr ⟨_, _, rfl⟩
  | effect hr _ => simp [State.ready, hb] at hr

/-- Only the completion of a uREAD can stop, so with nothing pending every step goes on. -/
theorem step_next_of_mq_nil {s : State} (hq : s.mq = []) : ∃ t, step s = .next t := by
  rcases step_cases s with ⟨-, ho⟩ | ⟨ts, -, ho⟩ | ⟨a, ts, -, ho⟩ | ⟨ts, -, ho⟩
  · exact ⟨s, ho⟩
  · obtain ⟨t, ht, -⟩ := hostTurn_cases { s with turns := ts }
    exact ⟨t, ho.trans ht⟩
  · rcases complete_cases ho.symm with ⟨-, hs⟩ | ⟨u, us, hu, -⟩
    · exact ⟨_, hs⟩
    · rw [show s.mq = u :: us from hu] at hq; cases hq
  · exact ⟨_, ho⟩

/-- Settles O17: with nothing pending no completion is left to come, and the host's accesses are refused while BUSY. -/
theorem nackedByteHangsUntilReset : Obligations.NackedByteHangsUntilReset := by
  refine ⟨fun s b v us hq => complete_uWrite_nack hq rfl, fun s hp hq hn hreset => ?_⟩
  have hb : s.busy = true := s.busy_iff.2 (.inr hp)
  obtain ⟨t, ht⟩ := step_next_of_mq_nil hq
  refine ⟨t, ht, ?_⟩
  rcases step_cases_of_no_reset hreset ht with ⟨-, ts, p, u, rs, k, ha, rfl⟩ | ⟨-, u, us, a, ts, hu, -⟩
  · rcases ha.of_busy hb with rfl | ⟨c, w, rfl⟩
    · exact ⟨hp, hq, hn, rfl, hb⟩
    · exact ⟨hp, hq, hn, rfl, hb⟩
  · rw [hq] at hu; cases hu

/-! How BUSY falls (R121, R270) -/

/-- A completion whose byte, if any, is acknowledged hangs nothing and keeps the rest of the queue. -/
theorem completeOp_of_ack {u : MicroOp} {a : Answer} {s t : State} (ha : a.ack = .ack)
    (h : completeOp u a s = .next t) : t.phase ≠ .hung ∧ t.mq = s.mq ∧ t.turns = s.turns := by
  cases u with
  | uWrite b =>
    rw [completeOp, ha] at h
    cases h
    exact ⟨phaseAfterWrite_ne_hung _ b, rfl, rfl⟩
  | uRead =>
    rw [completeOp, completeRead] at h
    split at h
    · cases h; simp
    · cases h
  | _ => cases h; simp

/-- Settles O56: each turn completes the head of the queue, and the engine does not hang. -/
theorem busyFallsWhenThePeripheralResponds : Obligations.BusyFallsWhenThePeripheralResponds := by
  intro s as ts hinv hp hlen hack hturns
  induction as generalizing s with
  | nil =>
    have hq : s.mq = [] := List.eq_nil_of_length_eq_zero hlen.symm
    rw [hq]
    exact ⟨s, rfl, State.busy_eq_false.2 ⟨hq, hp⟩, hturns⟩
  | cons a as ih =>
    obtain ⟨u, us, hq⟩ := List.exists_cons_of_length_eq_add_one hlen.symm
    obtain ⟨t, hstep, ht⟩ := hinv.step_next
    have hop : completeOp u a { s with turns := as.map .bus ++ ts, mq := us } = .next t := by
      rw [← hstep, step_of_bus_turn hturns]
      exact (complete_of_mq (s := { s with turns := as.map .bus ++ ts }) hq a).symm
    obtain ⟨hp', hmq, htn⟩ := completeOp_of_ack (hack a List.mem_cons_self) hop
    have hmq : t.mq = us := hmq
    have hlen' : as.length = t.mq.length := by simpa [hq, hmq] using hlen
    obtain ⟨r, hr, hrest⟩ := ih t ht hp' hlen' (fun b hb => hack b (List.mem_cons_of_mem _ hb)) htn
    refine ⟨r, ?_, hrest⟩
    rw [hq, List.length_cons, steps, hstep, ← hmq]
    exact hr

end Sys2Proof.Machine
end
section
/-! PROOFS. The transaction grammar read as the automaton of the bus phases: what completes a transaction from each phase,
and the shape of a trace that leads from IDLE to some phase (R20, R122, R132). -/

namespace Sys2Proof.Machine

/-- What follows a segment that is over: a stop, or a restart and further segments (R132). -/
inductive EndsTxn : List Symbol → Prop where
  | stop : EndsTxn [.P]
  | restart {l : List Symbol} : Segs l → EndsTxn (.Sr :: (l ++ [.P]))

/-- The symbols that complete a transaction from a phase (R132). After a transaction nothing is left to complete it, and a
hung engine never completes it. -/
def Completes : Phase → List Symbol → Prop
  | .idle, l   => l = []
  | .addr, l   => ∃ k, Segs k ∧ l = k ++ [.P]
  | .mtx, l    => ∃ d e, DataBytes d ∧ EndsTxn e ∧ l = d ++ e
  | .mrx, l    => ∃ v k e, ReadTail k ∧ EndsTxn e ∧ l = .R v :: (k ++ e)
  | .mrxAck, l => ∃ k e, ReadTail k ∧ EndsTxn e ∧ l = k ++ e
  | .mrxEnd, l => EndsTxn l
  | .hung, _   => False

/-- A segment and what ends the transaction after it are the segments and the stop. -/
theorem Seg.segs_of_endsTxn {l e : List Symbol} (hl : Seg l) (he : EndsTxn e) : ∃ k, Segs k ∧ l ++ e = k ++ [.P] := by
  cases he with
  | stop => exact ⟨l, .one hl, rfl⟩
  | restart hr => exact ⟨_, .more hl hr, by simp⟩

/-- A segment is over in MTX and in MRX_END (R122). -/
theorem EndsTxn.completes {ph : Phase} {l : List Symbol} (h : EndsTxn l) (hph : ph = .mtx ∨ ph = .mrxEnd) :
    Completes ph l := by
  rcases hph with rfl | rfl
  · exact ⟨[], l, .nil, h, rfl⟩
  · exact h

/-- An address byte opens a segment of the direction that its bit 0 selects. -/
theorem Completes.address {b : Byte} {l : List Symbol} (h : Completes (if b.getLsbD 0 then .mrx else .mtx) l) :
    Completes .addr (.W b .ack :: l) := by
  split at h
  · next hb =>
    obtain ⟨v, k, e, hk, he, rfl⟩ := h
    exact (Seg.read b v hb hk).segs_of_endsTxn he
  · next hb =>
    obtain ⟨d, e, hd, he, rfl⟩ := h
    exact (Seg.write b (Bool.eq_false_iff.2 hb) hd).segs_of_endsTxn he

/-- A symbol that takes the bus from one phase to the next stands before whatever completes the transaction from there. -/
theorem Completes.cons {ph q : Phase} {y : Symbol} {l : List Symbol} (h : Completes q l) (hy : ph.afterSymbol y = some q)
    (hph : ph ≠ .idle) (hX : y ≠ .X) : Completes ph (y :: l) := by
  cases y with
  | X => exact absurd rfl hX
  | S => cases ph with
    | idle => exact absurd rfl hph
    | _ => cases hy
  | Sr => cases ph with
    | mtx | mrxEnd =>
      cases hy
      obtain ⟨k, hk, rfl⟩ := h
      exact (EndsTxn.restart hk).completes (by simp)
    | _ => cases hy
  | P => cases ph with
    | mtx | mrxEnd =>
      cases hy
      obtain rfl : l = [] := h
      exact EndsTxn.stop.completes (by simp)
    | _ => cases hy
  | W b a => cases a with
    | nack => cases ph with
      | addr | mtx => cases hy; exact h.elim
      | _ => cases hy
    | ack => cases ph with
      | addr => cases hy; exact h.address
      | mtx =>
        cases hy
        obtain ⟨d, e, hd, he, rfl⟩ := h
        exact ⟨_, e, .cons b hd, he, rfl⟩
      | _ => cases hy
  | R v => cases ph with
    | mrx =>
      cases hy
      obtain ⟨k, e, hk, he, rfl⟩ := h
      exact ⟨v, k, e, hk, he, rfl⟩
    | _ => cases hy
  | A => cases ph with
    | mrxAck =>
      cases hy
      obtain ⟨v, k, e, hk, he, rfl⟩ := h
      exact ⟨_, e, .more v hk, he, rfl⟩
    | _ => cases hy
  | N => cases ph with
    | mrxAck => cases hy; exact ⟨_, l, .last, h, rfl⟩
    | _ => cases hy

/-- Every transaction that is neither over nor hung can be completed. -/
theorem exists_completes {ph : Phase} (hi : ph ≠ .idle) (hh : ph ≠ .hung) : ∃ y l, Completes ph (y :: l) := by
  have hmtx : Completes .mtx [.P] := EndsTxn.stop.completes (.inl rfl)
  have hend : Completes .mrxEnd [.P] := EndsTxn.stop.completes (.inr rfl)
  have hack : Completes .mrxAck [.N, .P] := hend.cons rfl (by simp) (by simp)
  cases ph with
  | idle => exact absurd rfl hi
  | hung => exact absurd rfl hh
  | addr => exact ⟨_, _, hmtx.cons (ph := .addr) (y := .W 0 .ack) rfl (by simp) (by simp)⟩
  | mtx => exact ⟨_, _, hmtx⟩
  | mrx => exact ⟨_, _, hack.cons (ph := .mrx) (y := .R 0) rfl (by simp) (by simp)⟩
  | mrxAck => exact ⟨_, _, hack⟩
  | mrxEnd => exact ⟨_, _, hend⟩

/-- A transaction so far: an incomplete one, which whatever completes it from its phase makes a complete one. -/
structure OpenTxn (ph : Phase) (l : List Symbol) : Prop where
  part : PartTxn l
  completes : ∀ r, Completes ph r → Txn (l ++ r)

theorem OpenTxn.of_completes {ph : Phase} {l : List Symbol} (hi : ph ≠ .idle) (hh : ph ≠ .hung) (hl : l ≠ [])
    (h : ∀ r, Completes ph r → Txn (l ++ r)) : OpenTxn ph l := by
  obtain ⟨y, r, hr⟩ := exists_completes hi hh
  exact ⟨.cut hl (by simp) (h _ hr), h⟩

theorem openTxn_start : OpenTxn .addr [.S] := by
  refine .of_completes (by simp) (by simp) (by simp) ?_
  rintro _ ⟨k, hk, rfl⟩
  exact .mk hk

/-- Only a refused byte hangs the engine, and it stands where an acknowledged one may (R126, R128). -/
theorem Phase.eq_refused_of_afterSymbol {ph : Phase} {y : Symbol} (h : ph.afterSymbol y = some .hung) :
    ∃ b, y = .W b .nack ∧ (ph = .addr ∨ ph = .mtx) := by
  unfold Phase.afterSymbol at h
  split at h
  case h_2 => split at h <;> cases h
  case h_4 b => exact ⟨b, rfl, .inl rfl⟩
  case h_5 b => exact ⟨b, rfl, .inr rfl⟩
  all_goals cases h

/-- A further symbol that does not end the transaction leaves it open. -/
theorem OpenTxn.concat {ph q : Phase} {y : Symbol} {l : List Symbol} (h : OpenTxn ph l)
    (hy : ph.afterSymbol y = some q) (hph : ph ≠ .idle) (hX : y ≠ .X) (hq : q ≠ .idle) : OpenTxn q (l ++ [y]) := by
  have hcompletes : ∀ r, Completes q r → Txn ((l ++ [y]) ++ r) := fun r hr => by
    simpa using h.completes _ (hr.cons hy hph hX)
  by_cases hh : q = .hung
  · subst hh
    obtain ⟨b, rfl, hsent⟩ := Phase.eq_refused_of_afterSymbol hy
    have hack : ph.afterSymbol (.W b .ack) = some (phaseAfterWrite ph b) := Phase.afterSymbol_acknowledged hsent b
    obtain ⟨z, r, hr⟩ := exists_completes (ph := phaseAfterWrite ph b)
      (by unfold phaseAfterWrite; split_ifs <;> simp) (phaseAfterWrite_ne_hung ph b)
    exact ⟨.refused b (h.completes _ (hr.cons hack hph (by simp))), hcompletes⟩
  · exact .of_completes hq hh (by simp) hcompletes

theorem TraceShape.cons_txn {l r : List Symbol} (hl : Txn l) (hr : TraceShape r) : TraceShape (l ++ r) := by
  cases hr with
  | complete h => exact .complete (.cons hl h)
  | incomplete h hp => rw [← List.append_assoc]; exact .incomplete (.cons hl h) hp
  | abandoned h hp hu =>
    rw [← List.append_assoc, ← List.append_assoc]
    exact .abandoned (.cons hl h) hp hu

/-- A trace along the bus phases has the shape of R132: from IDLE on, and behind an open transaction. -/
theorem traceShape_of_phaseAlong {ph q : Phase} {l : List Symbol} (h : phaseAlong ph l = some q) :
    (ph = .idle → TraceShape l) ∧ (ph ≠ .idle → ∀ k, OpenTxn ph k → TraceShape (k ++ l)) := by
  induction l generalizing ph with
  | nil => exact ⟨fun _ => .complete .nil, fun _ k hk => by simpa using TraceShape.incomplete .nil hk.part⟩
  | cons y l ih =>
    obtain ⟨p, hy, hl⟩ := Option.bind_eq_some_iff.1 h
    obtain ⟨hidle, hopen⟩ := ih hl
    refine ⟨?_, fun hph k hk => ?_⟩
    · rintro rfl
      cases y <;> cases hy
      exact hopen (by simp) [.S] openTxn_start
    · by_cases hX : y = .X
      · subst hX
        have hp : p = .idle := Option.some.inj (hy.symm.trans (Phase.afterSymbol_X hph))
        exact .abandoned .nil hk.part (hidle hp)
      · rw [List.append_cons]
        by_cases hp : p = .idle
        · subst hp
          have hover : Completes .idle [] := rfl
          exact .cons_txn (hk.completes [y] (hover.cons hy hph hX)) (hidle rfl)
        · exact hopen hp _ (hk.concat hy hph hX hp)

/-- Any number of steps from a state with the invariant goes on and keeps it. -/
theorem State.Inv.steps_next {s : State} (h : s.Inv) (k : Nat) : ∃ t, steps k s = .next t ∧ t.Inv := by
  induction k generalizing s with
  | zero => exact ⟨s, rfl, h⟩
  | succ k ih =>
    obtain ⟨u, hu, hinv⟩ := h.step_next
    rw [steps, hu]
    exact ih hinv

/-- Settles O55: the trace leads from IDLE to the phase, and the invariant holds along every run. -/
theorem traceFollowsTheGrammar : Obligations.TraceFollowsTheGrammar := by
  have hshape (s : State) (h : s.Inv) : TraceShape s.trace := (traceShape_of_phaseAlong h.tracePhase).1 rfl
  refine ⟨hshape, fun p ts k t ht => hshape t ?_⟩
  obtain ⟨u, hu, hinv⟩ := (invariantHoldsAtReset p ts).steps_next k
  rw [ht] at hu
  exact Host.Outcome.next.inj hu ▸ hinv

end Sys2Proof.Machine
end

section
/-! PROOFS. The issue of the two composite transactions (R120, R150, R151). -/

namespace Sys2Proof.Machine

theorem encode_wrreg (reg val : Byte) :
    encode (.wrreg reg val) = 0x80000000 ||| (reg.setWidth 32 <<< 8) ||| val.setWidth 32 := by
  simp [encode, commandWord, fieldAt]

theorem encode_rdblk (reg count : Byte) :
    encode (.rdblk reg count) = 0x90000000 ||| (count.setWidth 32 <<< 16) ||| (reg.setWidth 32 <<< 8) := by
  simp [encode, commandWord, fieldAt]

/-! Two items for each byte, of which the second differs for the last byte (R151) -/

/-- The shape that R151 gives the micro-ops and the symbols of n received bytes. -/
def perByte {α : Type} (item : Nat → α) (more last : α) (n : Nat) : List α :=
  (List.range n).flatMap fun i => [item i, if i < n - 1 then more else last]

section
variable {α : Type} (item : Nat → α) (more last : α) (n : Nat)

theorem perByte_one : perByte item more last 1 = [item 0, last] := rfl

/-- The first of two bytes or more. -/
theorem perByte_add_two :
    perByte item more last (n + 2) = item 0 :: more :: perByte (fun i => item (i + 1)) more last (n + 1) := by
  rw [perByte, List.range_succ_eq_map, List.flatMap_cons, List.flatMap_map]
  simp [perByte]

/-- The last byte. -/
theorem perByte_succ :
    perByte item more last (n + 1) = ((List.range n).flatMap fun i => [item i, more]) ++ [item n, last] := by
  have hmore : ∀ i ∈ List.range n, [item i, if i < n then more else last] = [item i, more] := fun i hi => by
    rw [if_pos (List.mem_range.1 hi)]
  rw [perByte, List.range_succ, List.flatMap_append, Nat.add_sub_cancel, List.flatMap_congr hmore]
  simp

end

theorem receiveOps_eq_perByte (n : Nat) : receiveOps n = perByte (fun _ => .uRead) .uAck .uNack n := by
  induction n using receiveOps.induct with
  | case1 => rfl
  | case2 => rfl
  | case3 n ih => rw [receiveOps, ih, perByte_add_two]

theorem rdblkOps_eq_rdblkSequence (reg : Byte) (n : Nat) : rdblkOps reg n = rdblkSequence reg n := by
  rw [rdblkOps, receiveOps_eq_perByte]; rfl

/-! Accepted (R120) -/

theorem exec_wrreg_of_idle {s : State} (hr : s.ready = true) (hp : s.phase = .idle) (reg val : Byte) :
    exec (.wrreg reg val) s = .next { s with mq := wrregOps reg val } :=
  issueBus_accepted hr (by simp [legalPhases, hp])

theorem exec_rdblk_of_idle {s : State} (hr : s.ready = true) (hp : s.phase = .idle) (reg : Byte) {count : Byte}
    (h1 : 1 ≤ count.toNat) (h22 : count.toNat ≤ 22) :
    exec (.rdblk reg count) s = .next { s with mq := rdblkOps reg count.toNat } := by
  have hcount : ¬ (count.toNat = 0 ∨ Config.bufCap < count.toNat) := by rw [Config.bufCap]; omega
  rw [exec, execRdblk, if_neg hcount]
  exact issueBus_accepted hr (by simp [legalPhases, hp])

/-- Settles O19: the phase decides first, and then the count. -/
theorem rdblkIssues : Obligations.RdblkIssues := by
  intro reg count w
  have hw : encode (.rdblk reg count) = w := encode_rdblk reg count
  rw [← hw]
  refine ⟨?spelled, fun s hr hp h1 h22 => ?accepted, fun s hr hp hcount => ?count,
    fun s hr hp => exec_out_of_phase hr (by simp [legalPhases, hp])⟩
  case spelled =>
    obtain ⟨hrow, hreg, hcnt⟩ := rdblk_row_iff.2 (rfl : encode (.rdblk reg count) = _)
    exact spelledAndGuarded_of_row (r := opRows[8]) (List.getElem_mem _) (beq_iff_eq.2 hrow)
      (congrArg₂ Instr.rdblk hreg hcnt)
  case accepted => rw [exec_rdblk_of_idle hr hp reg h1 h22, rdblkOps_eq_rdblkSequence]
  case count =>
    have hcount : count.toNat = 0 ∨ Config.bufCap < count.toNat := hcount
    rw [exec, execRdblk, if_pos hcount]
    exact issueBus_refused hr (by simp [legalPhases, hp])

end Sys2Proof.Machine
end

section
/-! PROOFS. Runs of completions: one rule for each micro-op, and the turns that pass at an empty queue (R121 to R131). -/

namespace Sys2Proof.Machine

theorem steps_of_step {s t : State} (h : step s = .next t) (k : Nat) : steps (k + 1) s = steps k t := by
  rw [steps, h]

/-- A turn of the agent completes the head of the queue (R121). -/
theorem steps_of_completeOp {s t : State} {a : Answer} {u : MicroOp} {us : List MicroOp} {ts : List Turn}
    (ht : s.turns = .bus a :: ts) (hq : s.mq = u :: us)
    (h : completeOp u a { s with turns := ts, mq := us } = .next t) (k : Nat) : steps (k + 1) s = steps k t := by
  refine steps_of_step ?_ k
  rw [step_of_bus_turn ht]
  exact (complete_of_mq (s := { s with turns := ts }) hq a).trans h

/-- The agent's turns pass at an empty queue (log 4). -/
theorem steps_of_mq_nil {s : State} {as : List Answer} {ts : List Turn} (hq : s.mq = [])
    (ht : s.turns = as.map .bus ++ ts) : steps as.length s = .next { s with turns := ts } := by
  induction as generalizing s with
  | nil => rw [← show s.turns = ts from ht]; rfl
  | cons a as ih =>
    obtain ⟨-, -, hpass⟩ := stepTakesTheAgentsTurn { s with turns := as.map .bus ++ ts }
    have hstep : step s = .next { s with turns := as.map .bus ++ ts } := (step_of_bus_turn ht).trans (hpass a hq)
    exact (steps_of_step hstep _).trans (ih hq rfl)

/-- The block of s while a transaction completes: what is still pending, the turns to come, the phase, the scratch buffer, and
the symbols emitted since s. -/
def State.during (s : State) (q : List MicroOp) (ts : List Turn) (ph : Phase) (m : Memory) (n : BitVec 5)
    (l : List Symbol) : State :=
  { s with mq := q, turns := ts, phase := ph, buf := m, bufPtr := n, trace := s.trace ++ l }

theorem State.eq_during {s : State} {q : List MicroOp} {ts : List Turn} (hq : s.mq = q) (ht : s.turns = ts) :
    s = s.during q ts s.phase s.buf s.bufPtr [] := by
  simp [State.during, ← hq, ← ht]

section
variable (s : State) {a : Answer} (us : List MicroOp) (ts : List Turn) (ph : Phase) (m : Memory) (n : BitVec 5)
  (l : List Symbol) (k : Nat)

theorem steps_uStart :
    steps (k + 1) (s.during (.uStart :: us) (.bus a :: ts) ph m n l) =
      steps k (s.during us ts .addr [] 0 (l ++ [Symbol.S])) :=
  steps_of_completeOp rfl rfl (by simp [completeOp, completeStart, State.during, State.emit, Memory.clear]) k

theorem steps_uRestart :
    steps (k + 1) (s.during (.uRestart :: us) (.bus a :: ts) ph m n l) =
      steps k (s.during us ts .addr m n (l ++ [Symbol.Sr])) :=
  steps_of_completeOp rfl rfl (by simp [completeOp, completeRestart, State.during, State.emit]) k

theorem steps_uStop :
    steps (k + 1) (s.during (.uStop :: us) (.bus a :: ts) ph m n l) =
      steps k (s.during us ts .idle m n (l ++ [Symbol.P])) :=
  steps_of_completeOp rfl rfl (by simp [completeOp, completeStop, State.during, State.emit]) k

theorem steps_uAck :
    steps (k + 1) (s.during (.uAck :: us) (.bus a :: ts) ph m n l) =
      steps k (s.during us ts .mrx m n (l ++ [Symbol.A])) :=
  steps_of_completeOp rfl rfl (by simp [completeOp, completeAck, State.during, State.emit]) k

theorem steps_uNack :
    steps (k + 1) (s.during (.uNack :: us) (.bus a :: ts) ph m n l) =
      steps k (s.during us ts .mrxEnd m n (l ++ [Symbol.N])) :=
  steps_of_completeOp rfl rfl (by simp [completeOp, completeNack, State.during, State.emit]) k

theorem steps_uRead (hn : n.toNat < 22) :
    steps (k + 1) (s.during (.uRead :: us) (.bus a :: ts) ph m n l) =
      steps k (s.during us ts .mrxAck (m.write n.toNat a.byte) (n + 1) (l ++ [Symbol.R a.byte])) :=
  steps_of_completeOp rfl rfl
    (by simp [completeOp, completeRead, State.during, State.emit, show n.toNat < Config.bufCap from hn]) k

theorem steps_uWrite_of_ack (b : Byte) (ha : a.ack = .ack) :
    steps (k + 1) (s.during (.uWrite b :: us) (.bus a :: ts) ph m n l) =
      steps k (s.during us ts (phaseAfterWrite ph b) m n (l ++ [Symbol.W b .ack])) :=
  steps_of_completeOp rfl rfl (by simp [completeOp, completeWrite, ha, State.during, State.emit]) k

/-- A byte that is refused ends the run in HUNG, and the answers left over change nothing (R128, log 4). -/
theorem steps_uWrite_of_nack (as : List Answer) (b : Byte) (ha : a.ack = .nack) :
    steps (as.length + 1) (s.during (.uWrite b :: us) (.bus a :: (as.map .bus ++ ts)) ph m n l) =
      .next { s.during [] ts .hung m n (l ++ [Symbol.W b .nack]) with nacked := true } := by
  have hrefused : completeOp (.uWrite b) a (s.during us (as.map .bus ++ ts) ph m n l) =
      .next { s.during [] (as.map .bus ++ ts) .hung m n (l ++ [Symbol.W b .nack]) with nacked := true } := by
    simp [completeOp, completeWrite, ha, State.during, State.emit]
  rw [steps_of_completeOp rfl rfl hrefused]
  exact steps_of_mq_nil rfl rfl

end

/-- Settles O18: the run is over at the first byte that is refused. -/
theorem wrregIssuesAndCompletes : Obligations.WrregIssuesAndCompletes := by
  intro reg val
  rw [← encode_wrreg]
  refine ⟨?spelled, fun s hr hp => exec_wrreg_of_idle hr hp reg val,
    fun s hr hp => exec_out_of_phase hr (by simp [legalPhases, hp]), fun s a0 a1 a2 a3 a4 ts hq ht => ?completes⟩
  case spelled =>
    obtain ⟨hrow, hreg, hval⟩ := wrreg_row_iff.2 (rfl : encode (.wrreg reg val) = _)
    exact spelledAndGuarded_of_row (r := opRows[7]) (List.getElem_mem _) (beq_iff_eq.2 hrow)
      (congrArg₂ Instr.wrreg hreg hval)
  case completes =>
    have hstart := (congrArg (steps 5) (State.eq_during hq ht)).trans (steps_uStart ..)
    refine ⟨fun h1 h2 h3 => ?_, fun h1 => ?_, fun h1 h2 => ?_, fun h1 h2 h3 => ?_⟩
    · rw [hstart, steps_uWrite_of_ack (ha := h1), steps_uWrite_of_ack (ha := h2), steps_uWrite_of_ack (ha := h3),
        steps_uStop]
      rfl
    · rw [hstart]
      exact steps_uWrite_of_nack (as := [a2, a3, a4]) (ha := h1) ..
    · rw [hstart, steps_uWrite_of_ack (ha := h1)]
      exact steps_uWrite_of_nack (as := [a3, a4]) (ha := h2) ..
    · rw [hstart, steps_uWrite_of_ack (ha := h1), steps_uWrite_of_ack (ha := h2)]
      exact steps_uWrite_of_nack (as := [a4]) (ha := h3) ..

end Sys2Proof.Machine
end

section
/-! PROOFS. A completed RDBLK: the scratch buffer, the symbols, and the one not-acknowledge (R151 to R153). -/

namespace Sys2Proof.Machine

/-- The scratch buffer with the first n bytes received, in the order of their receipt (R153). -/
def receivedBytes (v : Nat → Byte) (n : Nat) : Memory := (List.range n).map fun i => (i, v i)

theorem receivedBytes_write (v : Nat → Byte) (n : Nat) :
    (receivedBytes v n).write n (v n) = receivedBytes v (n + 1) := by
  rw [Memory.write_append _ (by simp [receivedBytes])]
  simp [receivedBytes, List.range_succ]

/-- The next byte goes to the end of the received ones (R129). -/
theorem steps_uRead_receivedBytes (s : State) {a : Answer} (us : List MicroOp) (ts : List Turn) (ph : Phase)
    {v : Nat → Byte} {n : Nat} (l : List Symbol) (k : Nat) (hn : n < 22) (hv : a.byte = v n) :
    steps (k + 1) (s.during (.uRead :: us) (.bus a :: ts) ph (receivedBytes v n) (BitVec.ofNat 5 n) l) =
      steps k (s.during us ts .mrxAck (receivedBytes v (n + 1)) (BitVec.ofNat 5 (n + 1)) (l ++ [.R (v n)])) := by
  have hptr : (BitVec.ofNat 5 n).toNat = n := Nat.mod_eq_of_lt (by omega)
  have hsucc : BitVec.ofNat 5 (n + 1) = BitVec.ofNat 5 n + 1 := BitVec.ofNat_add n 1
  rw [steps_uRead _ _ _ _ _ _ _ _ (by rwa [hptr]), hptr, hv, receivedBytes_write, ← hsucc]

/-- The receives of an RDBLK from byte k on, and its uSTOP: two answers for each byte, the first of which carries it. -/
theorem steps_receiveOps (s : State) (ts : List Turn) (ph : Phase) (v : Nat → Byte) {m k : Nat} (l : List Symbol)
    {as : List Answer} (hm : 1 ≤ m) (hk : k + m ≤ 22) (hlen : as.length = 2 * m + 1)
    (hv : ∀ i < m, (as[2 * i]?).map (·.byte) = some (v (k + i))) :
    steps (2 * m + 1) (s.during (receiveOps m ++ [.uStop]) (as.map Turn.bus ++ ts) ph (receivedBytes v k)
        (BitVec.ofNat 5 k) l) =
      .next (s.during [] ts .idle (receivedBytes v (k + m)) (BitVec.ofNat 5 (k + m))
        (l ++ (perByte (fun i => Symbol.R (v (k + i))) .A .N m ++ [.P]))) := by
  induction m using receiveOps.induct generalizing k l as ph with
  | case1 => omega
  | case2 =>
    obtain ⟨a, b, c, rfl⟩ := List.length_eq_three.1 hlen
    have hbyte : a.byte = v k := Option.some.inj (hv 0 Nat.one_pos)
    refine (steps_uRead_receivedBytes s _ _ ph l 2 (by omega) hbyte).trans ?_
    refine (steps_uNack ..).trans ((steps_uStop ..).trans ?_)
    simp [steps, perByte_one]
  | case3 m ih =>
    obtain ⟨a, b, as, rfl⟩ : ∃ a b as', as = a :: b :: as' := by
      match as, hlen with
      | a :: b :: as', _ => exact ⟨a, b, as', rfl⟩
    have hbyte : a.byte = v k := Option.some.inj (hv 0 (Nat.succ_pos _))
    refine (steps_uRead_receivedBytes s _ _ ph l (2 * (m + 1) + 2) (by omega) hbyte).trans ?_
    have hlen' : as.length = 2 * (m + 1) + 1 := by simpa [Nat.mul_add] using hlen
    have hv' : ∀ i < m + 1, (as[2 * i]?).map (·.byte) = some (v (k + 1 + i)) := fun i hi => by
      rw [Nat.add_assoc, Nat.add_comm 1]
      exact hv (i + 1) (by omega)
    refine (steps_uAck ..).trans ((ih _ _ (by omega) (by omega) hlen' hv').trans ?_)
    have hshift : (fun i => Symbol.R (v (k + 1 + i))) = fun i => .R (v (k + (i + 1))) := by
      funext i; rw [Nat.add_assoc, Nat.add_comm 1]
    rw [perByte_add_two, hshift, Nat.add_assoc, Nat.add_comm 1]
    simp

/-- The symbols of an RDBLK before its receives, the written bytes being acknowledged (R151). -/
def addressSymbols (reg : Byte) : List Symbol := [.S, .W 0xEE .ack, .W reg .ack, .Sr, .W 0xEF .ack]

theorem rdblkSymbols_eq_perByte (reg : Byte) (n : Nat) (v : Nat → Byte) :
    rdblkSymbols reg n v = addressSymbols reg ++ (perByte (fun i => Symbol.R (v i)) .A .N n ++ [Symbol.P]) :=
  List.append_assoc ..

/-- The five completions of an RDBLK before its receives: the register is named, and the peripheral is addressed for
reading (R151). -/
theorem steps_rdblk_address (s : State) {a0 a1 a2 a3 a4 : Answer} (reg : Byte) (us : List MicroOp) (ts : List Turn)
    (ph : Phase) (m : Memory) (n : BitVec 5) (k : Nat) (h1 : a1.ack = .ack) (h2 : a2.ack = .ack) (h4 : a4.ack = .ack) :
    steps (k + 5) (s.during (.uStart :: .uWrite 0xEE :: .uWrite reg :: .uRestart :: .uWrite 0xEF :: us)
        (.bus a0 :: .bus a1 :: .bus a2 :: .bus a3 :: .bus a4 :: ts) ph m n []) =
      steps k (s.during us ts .mrx [] 0 (addressSymbols reg)) := by
  rw [steps_uStart, steps_uWrite_of_ack (ha := h1), steps_uWrite_of_ack (ha := h2), steps_uRestart,
    steps_uWrite_of_ack (ha := h4)]
  rfl

/-- Settles O20: five completions address the peripheral, and the receives start at an empty scratch buffer. -/
theorem rdblkRunsToCompletion : Obligations.RdblkRunsToCompletion := by
  intro s reg n as v ts hpos h22 hq hlen hack hv ht
  obtain ⟨a0, a1, a2, a3, a4, as, rfl⟩ : ∃ a0 a1 a2 a3 a4 as', as = a0 :: a1 :: a2 :: a3 :: a4 :: as' := by
    match as, (show 5 ≤ as.length by omega) with
    | a0 :: a1 :: a2 :: a3 :: a4 :: as', _ => exact ⟨a0, a1, a2, a3, a4, as', rfl⟩
  simp only [List.forall_mem_cons] at hack
  obtain ⟨-, h1, h2, -, h4, -⟩ := hack
  rw [← rdblkOps_eq_rdblkSequence] at hq
  have hsplit : 6 + 2 * n = 2 * n + 1 + 5 := by omega
  have hlen' : as.length = 2 * n + 1 := Nat.add_right_cancel (m := 5) (hlen.trans hsplit)
  have hv' : ∀ i < n, (as[2 * i]?).map (·.byte) = some (v (0 + i)) := fun i hi => by
    rw [Nat.zero_add, ← hv i hi, Nat.add_comm 5]; rfl
  calc steps (6 + 2 * n) s
    _ = steps (2 * n + 1 + 5) (s.during (rdblkOps reg n)
          (.bus a0 :: .bus a1 :: .bus a2 :: .bus a3 :: .bus a4 :: (as.map Turn.bus ++ ts)) s.phase s.buf s.bufPtr []) :=
      congrArg₂ steps hsplit (State.eq_during hq ht)
    _ = steps (2 * n + 1) (s.during (receiveOps n ++ [.uStop]) (as.map .bus ++ ts) .mrx [] 0
          (addressSymbols reg)) :=
      steps_rdblk_address s reg _ _ _ _ _ _ h1 h2 h4
    _ = .next (s.during [] ts .idle (receivedBytes v (0 + n)) (BitVec.ofNat 5 (0 + n)) _) :=
      steps_receiveOps s ts .mrx v _ hpos (by omega) hlen' hv'
    _ = _ := by
      simp only [Nat.zero_add, ← rdblkSymbols_eq_perByte]
      rfl

/-- The one not-acknowledge stands between the last byte and the stop, and every byte before has an acknowledge (R152). -/
theorem rdblkSymbols_succ (reg : Byte) (n : Nat) (v : Nat → Byte) :
    rdblkSymbols reg (n + 1) v =
      (addressSymbols reg ++ (List.range n).flatMap fun i => [Symbol.R (v i), .A]) ++ [.R (v n), .N, .P] := by
  rw [rdblkSymbols_eq_perByte, perByte_succ]
  simp

/-- Settles O21: a completed RDBLK emits the symbols of R151, so only its last byte is not acknowledged. -/
theorem oneNackPerRdblk : Obligations.OneNackPerRdblk := by
  intro s t reg n as ts hpos h22 hq hlen hack ht hrun
  obtain ⟨v, hv⟩ : ∃ v : Nat → Byte, ∀ i < n, (as[5 + 2 * i]?).map (·.byte) = some (v i) :=
    ⟨fun i => ((as[5 + 2 * i]?).map (·.byte)).getD 0, fun i hi => by
      simp [List.getElem?_eq_getElem (show 5 + 2 * i < as.length by omega)]⟩
  rw [rdblkRunsToCompletion s reg n as v ts hpos h22 hq hlen hack hv ht] at hrun
  obtain rfl := Host.Outcome.next.inj hrun
  obtain ⟨m, rfl⟩ := Nat.exists_eq_add_one.2 hpos
  refine ⟨_, _, v m, congrArg (s.trace ++ ·) (rdblkSymbols_succ reg m v), ?received, ?acks, ?nacks, rfl⟩
  case received => simp [addressSymbols, List.countP_flatMap, Function.comp_def, List.map_const']
  case acks => simp [addressSymbols, List.count_flatMap, Function.comp_def, List.map_const']
  case nacks => simp [addressSymbols, List.count_flatMap, Function.comp_def, List.map_const']

end Sys2Proof.Machine
end

section
/-! PROOFS. A composite transaction and its primitives, run side by side: the same completions, once from the queue and once
with each command issued after a POLL (R155). -/

namespace Sys2Proof.Machine

/-- The primitive that queues a micro-op (R123 to R131). -/
def MicroOp.primitive : MicroOp → Instr
  | .uStart   => .start
  | .uRestart => .restart
  | .uStop    => .stop
  | .uWrite b => .write b
  | .uRead    => .read
  | .uAck     => .ack
  | .uNack    => .nack

/-- The block of s with another queue, and other agents. -/
def State.drivenBy (s : State) (q : List MicroOp) (p : List HostAction) (ts : List Turn) (rs : List HostRead) : State :=
  { s with mq := q, host := p, turns := ts, reads := rs }

theorem State.load_eq_drivenBy {s : State} (hq : s.mq = []) (p : List HostAction) (ts : List Turn) :
    s.load p ts = s.drivenBy [] p ts s.reads := by
  rw [← hq]; rfl

/-- Where a micro-op can complete, its primitive is accepted (R122, R129). -/
theorem exec_primitive {s : State} {u : MicroOp} {us : List MicroOp} (hr : s.ready = true)
    (hfit : queueFits s.phase s.bufPtr.toNat (u :: us) = true) : exec u.primitive s = .next { s with mq := [u] } := by
  cases u with
  | uRead =>
    simp only [queueFits, Bool.and_eq_true, decide_eq_true_eq, beq_iff_eq] at hfit
    obtain ⟨⟨hp, hn⟩, -⟩ := hfit
    have hroom : s.bufPtr ≠ 22 := fun h => by rw [h] at hn; exact absurd hn (by decide)
    obtain ⟨-, haccept, -⟩ := readIssuesAndCompletes
    exact haccept s hr hp hroom
  | _ =>
    simp only [queueFits, Bool.and_eq_true, Bool.or_eq_true, beq_iff_eq] at hfit
    exact issueBus_accepted hr (by simpa [legalPhases] using hfit.1)

/-- Where a micro-op can complete, it does, and the rest of the queue can complete after it unless the engine hangs (R121,
R128). -/
theorem completeOp_of_queueFits {s : State} {u : MicroOp} {us : List MicroOp} (a : Answer)
    (hfit : queueFits s.phase s.bufPtr.toNat (u :: us) = true) :
    ∃ t : State, completeOp u a s = .next t ∧ t.err = s.err ∧
      (t.phase ≠ .hung → queueFits t.phase t.bufPtr.toNat us = true) := by
  cases u with
  | uWrite b =>
    simp only [queueFits, Bool.and_eq_true] at hfit
    rw [completeOp]
    cases a.ack with
    | ack => exact ⟨_, rfl, rfl, fun _ => hfit.2⟩
    | nack => exact ⟨_, rfl, rfl, fun hp => absurd rfl hp⟩
  | uRead =>
    simp only [queueFits, Bool.and_eq_true, decide_eq_true_eq, beq_iff_eq] at hfit
    obtain ⟨⟨-, hn⟩, hus⟩ := hfit
    have hsucc : (s.bufPtr + 1).toNat = s.bufPtr.toNat + 1 := by
      have : s.bufPtr.toNat < 22 := hn
      bv_omega
    rw [← hsucc] at hus
    exact ⟨_, if_pos hn, rfl, fun _ => hus⟩
  | _ =>
    simp only [queueFits, Bool.and_eq_true] at hfit
    exact ⟨_, rfl, rfl, fun _ => hfit.2⟩

/-- A completion reads neither the rest of the queue nor the agents, and it leaves them as they are, but a byte that is
refused drops the queue (R121, R128). -/
theorem completeOp_drivenBy {s t : State} {u : MicroOp} {a : Answer} (h : completeOp u a s = .next t)
    (q : List MicroOp) (p : List HostAction) (ts : List Turn) (rs : List HostRead) :
    completeOp u a (s.drivenBy q p ts rs) = .next (t.drivenBy (if t.phase = .hung then [] else q) p ts rs) := by
  cases u with
  | uWrite b =>
    rw [completeOp] at h ⊢
    cases hack : a.ack with
    | ack =>
      rw [hack] at h
      cases h
      have hp : (completeWrite b .ack s).phase ≠ .hung := phaseAfterWrite_ne_hung s.phase b
      rw [if_neg hp]
      rfl
    | nack => rw [hack] at h; cases h; rfl
  | uRead =>
    rw [completeOp, completeRead] at h
    split at h
    · next hn => cases h; exact if_pos hn
    · cases h
  | _ => cases h; rfl

/-- A host that issues a command (R98, R120). -/
theorem step_of_issueAction {s : State} {i : Instr} {p : List HostAction} {ts : List Turn}
    (ht : s.turns = .host :: ts) (hh : s.host = issueAction i :: p) :
    step s = exec i { s with host := p, turns := ts } :=
  stepRunsTheDecodedCommand s (encode i) i p ts ht hh ((decodeAndEncodeAgree _ _).2 rfl)

/-! The host's side of the primitives (R99) -/

section
variable {s : State} (p : List HostAction) (ts : List Turn) (rs : List HostRead)

/-- With nothing pending, a POLL goes on unless the engine hangs (R21, R99). -/
theorem step_poll :
    ∃ rs', step (s.drivenBy [] (.poll :: p) (.host :: ts) rs) =
      .next (s.drivenBy [] (if s.phase = .hung then .poll :: p else p) ts rs') := by
  have hbusy : (s.drivenBy [] (.poll :: p) ts rs).busy = true ↔ s.phase = .hung := by
    simp [State.busy_iff, State.drivenBy]
  simp only [← hbusy]
  exact ⟨_, step_of_host_poll rfl rfl⟩

/-- A primitive is issued, and the agent's answer completes it. -/
theorem steps_issue_complete {u : MicroOp} {us : List MicroOp} {t : State} {a : Answer} (k : Nat)
    (herr : s.err = false) (hp : s.phase ≠ .hung) (hfit : queueFits s.phase s.bufPtr.toNat (u :: us) = true)
    (h : completeOp u a s = .next t) :
    steps (k + 2) (s.drivenBy [] (issueAction u.primitive :: p) (.host :: .bus a :: ts) rs) =
      steps k (t.drivenBy [] p ts rs) := by
  have hissue : step (s.drivenBy [] (issueAction u.primitive :: p) (.host :: .bus a :: ts) rs) =
      .next (s.drivenBy [u] p (.bus a :: ts) rs) :=
    (step_of_issueAction rfl rfl).trans
      (exec_primitive (s := s.drivenBy [] p (.bus a :: ts) rs) (State.ready_iff.2 ⟨herr, rfl, hp⟩) hfit)
  have hcomplete := completeOp_drivenBy h [] p ts rs
  rw [ite_self] at hcomplete
  exact (steps_of_step hissue _).trans (steps_of_completeOp rfl rfl hcomplete k)

/-- The turns of the primitives pass while the engine hangs in a POLL (R128, R99). -/
theorem steps_turnsWithPolls_of_hung (hh : s.phase = .hung) (as : List Answer) :
    ∃ rs', steps (3 * as.length) (s.drivenBy [] (.poll :: p) (turnsWithPolls as) rs) =
      .next (s.drivenBy [] (.poll :: p) [] rs') := by
  have hpoll (ts : List Turn) (rs : List HostRead) : ∃ rs', step (s.drivenBy [] (.poll :: p) (.host :: ts) rs) =
      .next (s.drivenBy [] (.poll :: p) ts rs') := by
    simpa only [if_pos hh] using step_poll (s := s) p ts rs
  induction as generalizing rs with
  | nil => exact ⟨rs, rfl⟩
  | cons a as ih =>
    obtain ⟨rs1, h1⟩ := hpoll (.bus a :: .host :: turnsWithPolls as) rs
    have h2 : step (s.drivenBy [] (.poll :: p) (.bus a :: .host :: turnsWithPolls as) rs1) =
      .next (s.drivenBy [] (.poll :: p) (.host :: turnsWithPolls as) rs1) := step_of_bus_turn rfl
    obtain ⟨rs3, h3⟩ := hpoll (turnsWithPolls as) rs1
    obtain ⟨rs4, h4⟩ := ih rs3
    exact ⟨rs4, (steps_of_step h1 _).trans ((steps_of_step h2 _).trans ((steps_of_step h3 _).trans h4))⟩

end

/-- The queue and its primitives, with the same answers, end in the same block: micro-op by micro-op, or in HUNG from the
first byte that is refused on. -/
theorem queue_and_primitives_agree {s : State} {us : List MicroOp} {as : List Answer} (rs rs' : List HostRead)
    (herr : s.err = false) (hp : s.phase ≠ .hung) (hfit : queueFits s.phase s.bufPtr.toNat us = true)
    (hlen : as.length = us.length) :
    ∃ t u, steps as.length (s.drivenBy us [] (as.map .bus) rs) = .next t ∧
      steps (3 * as.length) (s.drivenBy [] (issuedWithPolls (us.map MicroOp.primitive)) (turnsWithPolls as) rs') =
        .next u ∧
      t.blockView = u.blockView := by
  induction us generalizing s as rs rs' with
  | nil =>
    obtain rfl := List.eq_nil_of_length_eq_zero hlen
    exact ⟨_, _, rfl, rfl, rfl⟩
  | cons u us ih =>
    obtain ⟨a, as, rfl⟩ := List.exists_cons_of_length_eq_add_one hlen
    obtain ⟨t, ht, hterr, htfit⟩ := completeOp_of_queueFits a hfit
    have hqueue := steps_of_completeOp (s := s.drivenBy (u :: us) [] (.bus a :: as.map .bus) rs) rfl rfl
      (completeOp_drivenBy ht us [] (as.map .bus) rs) as.length
    have hissued := steps_issue_complete (.poll :: issuedWithPolls (us.map MicroOp.primitive))
      (.host :: turnsWithPolls as) rs' (3 * as.length + 1) herr hp hfit ht
    obtain ⟨rs2, hpoll⟩ := step_poll (s := t) (issuedWithPolls (us.map MicroOp.primitive)) (turnsWithPolls as) rs'
    have hprimitive := hissued.trans (steps_of_step hpoll (3 * as.length))
    by_cases hhung : t.phase = .hung
    · rw [if_pos hhung] at hqueue hprimitive
      have hpass : steps as.length (t.drivenBy [] [] (as.map .bus) rs) = .next (t.drivenBy [] [] [] rs) :=
        steps_of_mq_nil rfl (List.append_nil _).symm
      obtain ⟨rs3, hrest⟩ := steps_turnsWithPolls_of_hung (issuedWithPolls (us.map MicroOp.primitive)) rs2 hhung as
      exact ⟨_, _, hqueue.trans hpass, hprimitive.trans hrest, rfl⟩
    · rw [if_neg hhung] at hqueue hprimitive
      obtain ⟨t', u', h1, h2, hview⟩ := ih rs rs2 (hterr.trans herr) hhung (htfit hhung) (Nat.add_right_cancel hlen)
      exact ⟨t', u', hqueue.trans h1, hprimitive.trans h2, hview⟩

/-- R155 for any bus command whose queue can complete from here. -/
theorem command_equals_its_primitives {i : Instr} {ops : List MicroOp} {s : State} {as : List Answer}
    (hr : s.ready = true) (hexec : ∀ t : State, t.ready = true → t.phase = s.phase → exec i t = .next { t with mq := ops })
    (hfit : queueFits s.phase s.bufPtr.toNat ops = true) (hlen : as.length = ops.length) :
    ∃ t u, steps (as.length + 1) (s.load [issueAction i] (.host :: as.map .bus)) = .next t ∧
      steps (3 * as.length) (s.load (issuedWithPolls (ops.map MicroOp.primitive)) (turnsWithPolls as)) = .next u ∧
      t.blockView = u.blockView := by
  obtain ⟨herr, hq, hp⟩ := State.ready_iff.1 hr
  have hissue : step (s.load [issueAction i] (.host :: as.map .bus)) = .next (s.drivenBy ops [] (as.map .bus) s.reads) :=
    (step_of_issueAction rfl rfl).trans (hexec (s.load [] (as.map .bus)) hr rfl)
  rw [steps_of_step hissue, State.load_eq_drivenBy hq]
  exact queue_and_primitives_agree s.reads s.reads herr hp hfit hlen

/-- Settles O22: the queue of WRREG holds the micro-op of each of its primitives. -/
theorem wrregEqualsItsPrimitives : Obligations.WrregEqualsItsPrimitives := by
  intro s reg val as hr hp hlen
  have h := command_equals_its_primitives (as := as) hr
    (fun t ht htp => exec_wrreg_of_idle ht (htp.trans hp) reg val) (by rw [hp]; exact queueFits_wrregOps reg val _) hlen
  rw [hlen] at h
  exact h

theorem rdblkOps_map_primitive (reg : Byte) {n : Nat} (hn : 1 ≤ n) :
    (rdblkOps reg n).map MicroOp.primitive =
      [Instr.start, .write 0xEE, .write reg, .restart, .write 0xEF]
        ++ (List.replicate (n - 1) [Instr.read, .ack]).flatten ++ [Instr.read, .nack, .stop] := by
  obtain ⟨m, rfl⟩ := Nat.exists_eq_add_one.2 hn
  rw [rdblkOps, receiveOps_eq_perByte, perByte_succ]
  simp [List.flatMap, List.map_const', MicroOp.primitive, Config.addrW, Config.addrR]

/-- Settles O23: the queue of RDBLK holds the micro-op of each of its primitives. -/
theorem rdblkEqualsItsPrimitives : Obligations.RdblkEqualsItsPrimitives := by
  intro s reg count as hr hp h1 h22 hlen
  have h := command_equals_its_primitives (as := as) hr
    (fun t ht htp => exec_rdblk_of_idle ht (htp.trans hp) reg h1 h22)
    (by rw [hp]; exact queueFits_rdblkOps reg _ h1 h22) (hlen.trans (rdblkOps_length reg _).symm)
  rw [hlen, rdblkOps_map_primitive reg h1, Nat.add_right_comm] at h
  exact h

end Sys2Proof.Machine
end

section
/-! PROOFS. What the datapath commands take from the scratch buffer: a pair, the triple and the eleven coefficients, when
each is there and which bytes it is (R64, R65, R172, R174, R175). -/

namespace Sys2Proof.Machine

/-! Pairs and the triple (R64, R65) -/

section
variable {m : Memory}

theorem Memory.pair_of_read {i : Nat} {hi lo : Byte} (hhi : m.read i = some hi) (hlo : m.read (i + 1) = some lo) :
    m.pair i = some (hi ++ lo) := by
  simp [Memory.pair, hhi, hlo]

/-- The pair's bytes are the high and the low one of the value (R64, R175). -/
theorem Memory.pair_eq_some_iff {i : Nat} {v : BitVec 16} :
    m.pair i = some v ↔ m.read i = some (v.extractLsb' 8 8) ∧ m.read (i + 1) = some (v.extractLsb' 0 8) := by
  constructor
  · intro h
    simp only [Memory.pair, Option.bind_eq_bind, Option.bind_eq_some_iff, Option.pure_def, Option.some.injEq] at h
    obtain ⟨hi, hhi, lo, hlo, rfl⟩ := h
    rw [hhi, hlo, BitVec.extractLsb'_append_eq_left, BitVec.extractLsb'_append_eq_right]
    exact ⟨rfl, rfl⟩
  · rintro ⟨hhi, hlo⟩
    have hjoin : v.extractLsb' 8 8 ++ v.extractLsb' 0 8 = v :=
      (BitVec.extractLsb'_append_extractLsb'_eq_extractLsb' rfl).trans BitVec.extractLsb'_eq_self
    rw [Memory.pair_of_read hhi hlo, hjoin]

theorem Memory.pair_eq_none {i : Nat} (h : m.read i = none ∨ m.read (i + 1) = none) : m.pair i = none := by
  rcases h with h | h <;> simp [Memory.pair, h]

theorem Memory.triple_of_read {b0 b1 b2 : Byte} (h0 : m.read 0 = some b0) (h1 : m.read 1 = some b1)
    (h2 : m.read 2 = some b2) : m.triple = some (b0 ++ b1 ++ b2) := by
  simp [Memory.triple, h0, h1, h2]

theorem Memory.triple_eq_none (h : m.read 0 = none ∨ m.read 1 = none ∨ m.read 2 = none) : m.triple = none := by
  rcases h with h | h | h <;> simp [Memory.triple, h]

end

/-- Big-endian: appending a byte scales the bytes before it by 256 (R64). -/
theorem toNat_append_byte {n : Nat} (hi : BitVec n) (lo : Byte) : (hi ++ lo).toNat = hi.toNat * 256 + lo.toNat := by
  rw [BitVec.toNat_append, ← Nat.shiftLeft_add_eq_or_of_lt lo.isLt, Nat.shiftLeft_eq]

/-- The shift loses no bit above: 19 bits hold the quotient for every oversampling (R174, R32). -/
theorem rawPressure_toNat (oss : BitVec 2) (raw : BitVec 24) :
    (rawPressure oss raw).toNat = raw.toNat / 2 ^ (8 - oss.toNat) := by
  have hshift : 24 ≤ 8 - oss.toNat + 19 := by omega
  have hquot : raw.toNat / 2 ^ (8 - oss.toNat) < 2 ^ 19 := Nat.div_lt_of_lt_mul <|
    calc raw.toNat < 2 ^ 24 := raw.isLt
      _ ≤ 2 ^ (8 - oss.toNat + 19) := Nat.pow_le_pow_right (by decide) hshift
      _ = 2 ^ (8 - oss.toNat) * 2 ^ 19 := pow_add ..
  rw [rawPressure, BitVec.toNat_setWidth, BitVec.toNat_ushiftRight, Nat.shiftRight_eq_div_pow, Nat.mod_eq_of_lt hquot]

/-! The coefficients (R29, R172) -/

theorem CalSet.exists_reg (c : CalSet) {k : Nat} (hk : k < 11) : ∃ v, c.reg k = some v := by
  interval_cases k <;> exact ⟨_, rfl⟩

/-- Coefficient k is pair k of the bytes (R172). -/
theorem Memory.calSet_eq_some_iff {m : Memory} {c : CalSet} :
    m.calSet = some c ↔ ∀ k < 11, m.pair (2 * k) = c.reg k := by
  constructor
  · intro h k hk
    simp only [Memory.calSet, Option.bind_eq_bind, Option.bind_eq_some_iff, Option.pure_def, Option.some.injEq] at h
    obtain ⟨_, h0, _, h1, _, h2, _, h3, _, h4, _, h5, _, h6, _, h7, _, h8, _, h9, _, h10, rfl⟩ := h
    interval_cases k <;> assumption
  · intro h
    simp only [Nat.forall_lt_succ_right, Nat.not_lt_zero, false_implies, implies_true, true_and, CalSet.reg] at h
    simp [Memory.calSet, h]

theorem Memory.calSet_of_pairs {m : Memory} {v : Nat → BitVec 16} (h : ∀ k < 11, m.pair (2 * k) = some (v k)) :
    m.calSet = some ⟨v 0, v 1, v 2, v 3, v 4, v 5, v 6, v 7, v 8, v 9, v 10⟩ := by
  refine Memory.calSet_eq_some_iff.2 fun k hk => ?_
  rw [h k hk]
  interval_cases k <;> rfl

/-- A missing byte leaves its coefficient without a value, and so all of them (R172). -/
theorem Memory.calSet_eq_none {m : Memory} {i : Nat} (hi : i < 22) (h : m.read i = none) : m.calSet = none := by
  refine Option.eq_none_iff_forall_ne_some.2 fun c hc => ?_
  have hk : i / 2 < 11 := by omega
  obtain ⟨v, hv⟩ := c.exists_reg hk
  obtain ⟨hhi, hlo⟩ := Memory.pair_eq_some_iff.1 ((Memory.calSet_eq_some_iff.1 hc _ hk).trans hv)
  have hbyte : i = 2 * (i / 2) ∨ i = 2 * (i / 2) + 1 := by omega
  rcases hbyte with h2 | h2
  · rw [← h2, h] at hhi; cases hhi
  · rw [← h2, h] at hlo; cases hlo

/-! The bytes that a set of coefficients comes from (R175) -/

theorem Memory.read_receivedBytes (v : Nat → Byte) {n i : Nat} (hi : i < n) : (receivedBytes v n).read i = some (v i) := by
  induction n with
  | zero => omega
  | succ n ih =>
    rw [← receivedBytes_write]
    by_cases hlast : i = n
    · rw [hlast, Memory.read_write_same]
    · rw [Memory.read_write_other _ _ hlast, ih (by omega)]

theorem Memory.wf_receivedBytes (v : Nat → Byte) {n : Nat} (hn : n ≤ Config.bufCap) : (receivedBytes v n).wf = true := by
  induction n with
  | zero => rfl
  | succ n ih => rw [← receivedBytes_write]; exact Memory.wf_write (ih (by omega)) hn _

/-- Byte i of the 22 that hold the coefficients, each high byte first (R172). -/
def CalSet.byteAt (c : CalSet) (i : Nat) : Byte :=
  ((c.reg (i / 2)).getD 0).extractLsb' (if i % 2 = 0 then 8 else 0) 8

theorem CalSet.calSet_receivedBytes (c : CalSet) : (receivedBytes c.byteAt 22).calSet = some c := by
  refine Memory.calSet_eq_some_iff.2 fun k hk => ?_
  obtain ⟨v, hv⟩ := c.exists_reg hk
  rw [hv, Memory.pair_eq_some_iff, Memory.read_receivedBytes _ (by omega), Memory.read_receivedBytes _ (by omega)]
  have hhi : 2 * k / 2 = k ∧ 2 * k % 2 = 0 := by omega
  have hlo : (2 * k + 1) / 2 = k ∧ (2 * k + 1) % 2 = 1 := by omega
  simp [CalSet.byteAt, hv, hhi, hlo]

/-- Settles O28: pair k holds the two bytes of coefficient k, and every coefficient is such a pair. -/
theorem calibrationRoundTrip : Obligations.CalibrationRoundTrip := by
  refine ⟨fun m c h k hk => ?_, fun c => ⟨_, Memory.wf_receivedBytes _ le_rfl, c.calSet_receivedBytes⟩⟩
  obtain ⟨v, hv⟩ := c.exists_reg hk
  exact ⟨v, hv, Memory.pair_eq_some_iff.1 ((Memory.calSet_eq_some_iff.1 h k hk).trans hv)⟩

end Sys2Proof.Machine
end

section
/-! PROOFS. SETOSS, LOADCAL, LOADUT and LOADUP, and what no datapath command touches (R170 to R174). -/

namespace Sys2Proof.Machine

/-! The issue of a datapath command (R120) -/

section
variable {i : Instr} {s : State} (hr : s.ready = true)
include hr

theorem issueData_accepted (t : State) : issueData i (.ok t) s = .next t := issueGuard_ready hr

theorem issueData_refused (c : FaultCode) : issueData i (.error c) s = .next (s.faultedWith c (encode i)) := by
  rw [issueData, issueGuard_ready hr, State.raise_first (State.ready_iff.1 hr).1]

end

theorem encode_setoss (oss : BitVec 2) : encode (.setoss oss) = 0xA0000000 ||| oss.setWidth 32 := by
  simp [encode, commandWord, fieldAt]

/-- Settles O24: the first SETOSS is accepted only while no UP is loaded. -/
theorem setossWritesOnce : Obligations.SetossWritesOnce := by
  intro oss
  rw [← encode_setoss]
  refine ⟨?spelled, fun s hr hset hup => ?accepted, fun s hr hlocked => ?locked⟩
  case spelled =>
    obtain ⟨hrow, hoss⟩ := setoss_row_iff.2 (rfl : encode (.setoss oss) = _)
    exact spelledAndGuarded_of_row (r := opRows[9]) (List.getElem_mem _) (beq_iff_eq.2 hrow) (congrArg Instr.setoss hoss)
  case accepted =>
    rw [exec, execSetoss, if_neg (by simp [hset, hup])]
    exact issueData_accepted hr _
  case locked =>
    rw [exec, execSetoss, if_pos (by simpa using hlocked)]
    exact issueData_refused hr _

/-- Settles O25: the lock decides first, and then whether all the coefficients are there. -/
theorem loadcalDecodesTheBytes : Obligations.LoadcalDecodesTheBytes := by
  refine ⟨spelledAndGuarded_of_row (r := opRows[10]) (List.getElem_mem _) rfl rfl,
    fun s b hr hcal hb => ?accepted, fun s hr hcal ⟨i, hi, hnone⟩ => ?unwritten, fun s hr hcal => ?locked⟩
  case accepted =>
    have hpair (k : Nat) (hk : k < 11) : s.buf.pair (2 * k) = some (b (2 * k) ++ b (2 * k + 1)) :=
      Memory.pair_of_read (hb _ (by omega)) (hb _ (by omega))
    rw [exec, execLoadcal, if_neg (by simp [hcal]), Memory.calSet_of_pairs hpair]
    exact issueData_accepted hr _
  case unwritten =>
    rw [exec, execLoadcal, if_neg (by simp [hcal]), Memory.calSet_eq_none hi hnone]
    exact issueData_refused hr _
  case locked =>
    rw [exec, execLoadcal, if_pos hcal]
    exact issueData_refused hr _

/-- Settles O26: UT is the pair of the first two bytes, whatever it was. -/
theorem loadutAssemblesTwoBytes : Obligations.LoadutAssemblesTwoBytes := by
  refine ⟨spelledAndGuarded_of_row (r := opRows[11]) (List.getElem_mem _) rfl rfl,
    fun s b0 b1 hr h0 h1 => ⟨b0 ++ b1, ?accepted, toNat_append_byte b0 b1⟩, fun s hr hnone => ?unwritten⟩
  case accepted =>
    rw [exec, execLoadut, Memory.pair_of_read h0 h1]
    exact issueData_accepted hr _
  case unwritten =>
    rw [exec, execLoadut, Memory.pair_eq_none hnone]
    exact issueData_refused hr _

/-- Settles O27: UP is the triple of the first three bytes, shifted. -/
theorem loadupShiftsByOversampling : Obligations.LoadupShiftsByOversampling := by
  refine ⟨spelledAndGuarded_of_row (r := opRows[12]) (List.getElem_mem _) rfl rfl,
    fun s b0 b1 b2 hr h0 h1 h2 =>
      ⟨rawPressure s.oss (b0 ++ b1 ++ b2), ?accepted, ?quotient, rawPressure_lt _ _⟩,
    fun s hr hnone => ?unwritten⟩
  case accepted =>
    rw [exec, execLoadup, Memory.triple_of_read h0 h1 h2]
    exact issueData_accepted hr _
  case quotient =>
    have hraw : (b0 ++ b1 ++ b2).toNat = b0.toNat * 65536 + b1.toNat * 256 + b2.toNat := by
      rw [toNat_append_byte, toNat_append_byte]; omega
    rw [rawPressure_toNat, hraw]
  case unwritten =>
    rw [exec, execLoadup, Memory.triple_eq_none hnone]
    exact issueData_refused hr _

/-- A datapath command fills no queue (R170). -/
theorem Effect.mq_of_datapath {i : Instr} {s t : State} (h : Effect i s t)
    (hi : i = .loadcal ∨ i = .loadut ∨ i = .loadup ∨ i = .comp ∨ ∃ o, i = .setoss o) : t.mq = s.mq := by
  cases h with
  | setoss | loadcal | loadut | loadup | comp => rfl
  | _ => simp at hi

/-- Settles O29: no command touches the bus at its issue but through the queue, and a datapath command fills none. -/
theorem datapathCommandsLeaveTheBus : Obligations.DatapathCommandsLeaveTheBus := by
  intro i s t hi ht
  obtain ⟨u, hu, htrace, hphase, hbuf, hptr, hnacked, hreads, hdraws, hhost, hturns, -⟩ := issueFrame i s
  obtain ⟨v, hv, hissued⟩ := exec_cases i s
  obtain rfl : u = t := Host.Outcome.next.inj (hu.symm.trans ht)
  obtain rfl : v = u := Host.Outcome.next.inj (hv.symm.trans ht)
  have hmq : v.mq = s.mq := by
    cases hissued with
    | ignored _ => rfl
    | faulted _ _ => rfl
    | effect _ he => exact he.mq_of_datapath hi
  exact ⟨hmq, hphase, htrace, hbuf, hptr, hnacked, hreads, hdraws, hhost, hturns⟩

end Sys2Proof.Machine
end

section
/-! PROOFS. The primitives of R9 as Lean's own divisions, the steps of COMP over the registers,
and the B7 branch against exact division (R196 to R216). -/

namespace Sys2Proof.Machine

/-! The primitives (R9) -/

theorem asr_eq_ediv (v : Int) (n : Nat) : asr v n = v / 2 ^ n := Int.fdiv_eq_ediv_of_nonneg _ (by positivity)

theorem udiv_eq_ediv (a : Int) {b : Int} (hb : 0 ≤ b) : udiv a b = a / b := Int.fdiv_eq_ediv_of_nonneg _ hb

theorem wrapU32_of_lt {v : Int} (h0 : 0 ≤ v) (h : v < 2 ^ 32) : wrapU32 v = v := Int.emod_eq_of_lt h0 h

theorem pressureFactor_eq (oss : Nat) : pressureFactor oss = ((50000 >>> oss : Nat) : Int) := by
  rw [pressureFactor, asr_eq_ediv, Nat.shiftRight_eq_div_pow]; push_cast; rfl

/-! The steps (R196 to R214) -/

/-- Settles O32: the divisor of R197 decides whether there is a result. -/
theorem temperatureSteps : Obligations.TemperatureSteps := by
  intro c ut up oss w x1 d b5
  have hx1 : stepT1 (compInput c ut up oss) = x1 := asr_eq_ediv _ _
  have hd : stepT2Divisor (compInput c ut up oss) = d := by rw [stepT2Divisor, hx1]; rfl
  have hb5 : stepT3 (compInput c ut up oss) = b5 := by rw [stepT3, stepT2, hx1, hd]; rfl
  have ht : stepT4 b5 = w (b5 + 8) / 2 ^ 4 := asr_eq_ediv _ _
  rw [compT, hd, hb5, ht]
  exact ⟨fun h => if_pos h, fun h => if_neg h⟩

/-- Settles O33: B4 decides whether there is a result. -/
theorem pressureSteps : Obligations.PressureSteps := by
  intro c ut up oss b5 w u b6 q x3 b3 y3 b4 b7
  have hq : stepQ b6 = q := asr_eq_ediv _ _
  have hx3 : stepP4 (compInput c ut up oss) b6 = x3 := by
    simp only [stepP4, asr_eq_ediv, hq]; rfl
  have hb3 : stepP5 (compInput c ut up oss) b6 = b3 := by rw [stepP5, asr_eq_ediv, hx3]; rfl
  have hy3 : stepP8 (compInput c ut up oss) b6 = y3 := by
    simp only [stepP8, asr_eq_ediv, hq]; rfl
  have hb4 : stepP9 (compInput c ut up oss) b6 = b4 := by rw [stepP9, asr_eq_ediv, hy3]; rfl
  have hb7 : stepP10 (compInput c ut up oss) b3 = b7 := by rw [stepP10, pressureFactor_eq]; rfl
  have hp : compP (compInput c ut up oss) b5 = if b4 = 0 then none else some (stepP15 (w (quotientB7 b7 b4))) := by
    rw [← hb7, ← hb4, ← hb3]; rfl
  rw [hp]
  exact ⟨fun h => if_pos h, fun h => if_neg h⟩

/-- Settles O34: every shift is a floor division. -/
theorem pressureCorrectionSteps : Obligations.PressureCorrectionSteps := by
  intro p w x1 x2
  simp only [stepP15, asr_eq_ediv]
  rfl

/-! The quotient (R210, R216) -/

theorem quotientB7_of_lt {b7 b4 : Int} (h0 : 0 ≤ b7) (h : b7 < 0x80000000) (hb4 : 0 ≤ b4) :
    quotientB7 b7 b4 = 2 * b7 / b4 := by
  rw [quotientB7, if_pos h, wrapU32_of_lt (by omega) (by omega), udiv_eq_ediv _ hb4, mul_comm]

theorem quotientB7_of_ge {b7 b4 : Int} (h : 0x80000000 ≤ b7) (hb4 : 0 ≤ b4) :
    quotientB7 b7 b4 = wrapU32 (2 * (b7 / b4)) := by
  rw [quotientB7, if_neg (by omega), udiv_eq_ediv _ hb4, mul_comm]

/-- What doubling after the division loses is the quotient of twice the remainder. -/
theorem two_mul_ediv_eq (a : Int) {b : Int} (hb : b ≠ 0) : 2 * a / b = 2 * (a / b) + 2 * (a % b) / b := by
  have hsplit : 2 * a = 2 * (a % b) + 2 * (a / b) * b := by linarith [Int.emod_add_mul_ediv a b]
  rw [hsplit, Int.add_mul_ediv_right _ _ hb, add_comm]

/-- Settles O37: from 0x80000000 on the quotient is doubled after the division. That loses what twice the remainder
holds, and with a divisor of 1 also the bit beyond the 32. -/
theorem quotientAgainstExactDivision : Obligations.QuotientAgainstExactDivision := by
  intro b7 b4 h0 h32 hb4 _ e k r
  have he : e = 2 * k + 2 * r / b4 := two_mul_ediv_eq b7 (by omega)
  have hr0 : 0 ≤ r := Int.emod_nonneg _ (by omega)
  have hrlt : r < b4 := Int.emod_lt_of_pos _ (by omega)
  refine ⟨fun h => quotientB7_of_lt h0 h (by omega), fun h h2 => ?twoOrMore, fun h h1 => ?one⟩
  case twoOrMore =>
    have hk0 : 0 ≤ k := Int.ediv_nonneg h0 (by omega)
    have hk : k < 2 ^ 31 := Int.ediv_lt_of_lt_mul (by omega) (by omega)
    have hq : quotientB7 b7 b4 = 2 * k := by
      rw [quotientB7_of_ge h (by omega)]; exact wrapU32_of_lt (by omega) (by omega)
    refine ⟨hq, fun hsmall => ?_, fun hlarge => ?_⟩
    · have hlost : 2 * r / b4 = 0 := Int.ediv_eq_zero_of_lt (by omega) hsmall
      omega
    · have hlost : 2 * r / b4 = 1 := (Int.ediv_eq_iff_of_pos (by omega)).2 ⟨by omega, by omega⟩
      omega
  case one =>
    have hk : k = b7 := by simp only [k, h1, Int.ediv_one]
    have hq : quotientB7 b7 b4 = 2 * b7 - 2 ^ 32 := by
      rw [quotientB7_of_ge h (by omega)]; change (2 * k) % 2 ^ 32 = _; omega
    have hr : r = 0 := by omega
    have hlost : 2 * r / b4 = 0 := by rw [hr]; exact Int.zero_ediv b4
    exact ⟨hr, by omega⟩

end Sys2Proof.Machine
end

section
/-! PROOFS. The compensation as one equation, as a computation on 32-bit vectors, and as a command (R190 to R218). -/

namespace Sys2Proof.Machine

/-! The compensation as a whole (R190) -/

theorem compensate_eq (x : CompInput) :
    compensate x =
      if stepT2Divisor x = 0 ∨ stepP9 x (stepP1 (stepT3 x)) = 0 then none
      else some {
        t := toWord (stepT4 (stepT3 x))
        p := toWord (stepP15 (stepP11 (stepP10 x (stepP5 x (stepP1 (stepT3 x)))) (stepP9 x (stepP1 (stepT3 x))))) } := by
  by_cases hd : stepT2Divisor x = 0
  · simp [compensate, compT, hd]
  · by_cases hb4 : stepP9 x (stepP1 (stepT3 x)) = 0 <;> simp [compensate, compT, compP, hd, hb4]

theorem t_eq_of_compensate {x : CompInput} {r : Reading} (h : compensate x = some r) :
    r.t = toWord (stepT4 (stepT3 x)) := by
  rw [compensate_eq] at h
  split at h
  · cases h
  · cases h; rfl

/-- Settles O39: no other input stands in the steps up to T4. -/
theorem temperatureDependsOnFiveInputs : Obligations.TemperatureDependsOnFiveInputs := by
  intro c c' ut up up' oss oss' r r' h5 h6 hmc hmd hr hr'
  have hb5 : stepT3 (compInput c ut up oss) = stepT3 (compInput c' ut up' oss') := by
    simp only [stepT3, stepT2, stepT2Divisor, stepT1, compInput, h5, h6, hmc, hmd]
  rw [t_eq_of_compensate hr, t_eq_of_compensate hr', hb5]

/-- Settles O36: the sample calibration, run. -/
theorem sampleReading : Obligations.SampleReading := by
  unfold Obligations.SampleReading
  decide

/-! The reductions as 32-bit vectors (R8, R9) -/

theorem wrapS32_eq_bmod (v : Int) : wrapS32 v = v.bmod (2 ^ 32) := by
  rw [wrapS32, Int.bmod_def]; split <;> omega

theorem wrapS32_add_wrapS32 (a b : Int) : wrapS32 (a + wrapS32 b) = wrapS32 (a + b) := by
  simp only [wrapS32_eq_bmod, Int.add_bmod_bmod]

theorem wrapS32_wrapS32_add (a b : Int) : wrapS32 (wrapS32 a + b) = wrapS32 (a + b) := by
  rw [add_comm, wrapS32_add_wrapS32, add_comm]

theorem wrapS32_wrapS32_mul (a b : Int) : wrapS32 (wrapS32 a * b) = wrapS32 (a * b) := by
  simp only [wrapS32_eq_bmod, Int.bmod_mul_bmod]

theorem wrapU32_wrapS32 (v : Int) : wrapU32 (wrapS32 v) = wrapU32 v := by
  unfold wrapU32 wrapS32; omega

section
variable (x y : Word)

theorem toInt_add_word : (x + y).toInt = wrapS32 (x.toInt + y.toInt) := by
  rw [wrapS32_eq_bmod, BitVec.toInt_add]

theorem toInt_sub_word : (x - y).toInt = wrapS32 (x.toInt - y.toInt) := by
  rw [wrapS32_eq_bmod, BitVec.toInt_sub]

theorem toInt_mul_word : (x * y).toInt = wrapS32 (x.toInt * y.toInt) := by
  rw [wrapS32_eq_bmod, BitVec.toInt_mul]

theorem toInt_sdiv_word : (x.sdiv y).toInt = wrapS32 (tdiv x.toInt y.toInt) := by
  rw [wrapS32_eq_bmod, BitVec.toInt_sdiv, tdiv]

theorem toInt_sshiftRight_word (n : Nat) : (x.sshiftRight n).toInt = asr x.toInt n := by
  rw [asr_eq_ediv, BitVec.toInt_sshiftRight, Int.shiftRight_eq_div_pow]; push_cast; rfl

theorem toInt_eq_wrapS32_toNat : x.toInt = wrapS32 x.toNat := by
  rw [wrapS32_eq_bmod, BitVec.toInt_eq_toNat_bmod]

theorem toInt_shiftLeft_word (n : Nat) : (x <<< n).toInt = shlS32 x.toInt n := by
  rw [shlS32, toInt_eq_wrapS32_toNat x, wrapS32_wrapS32_mul, wrapS32_eq_bmod, BitVec.toInt_shiftLeft, Nat.shiftLeft_eq]
  push_cast; rfl

theorem toNat_eq_wrapU32_toInt : (x.toNat : Int) = wrapU32 x.toInt := by
  have hlt : (x.toNat : Int) < 2 ^ 32 := by exact_mod_cast x.isLt
  rw [toInt_eq_wrapS32_toNat, wrapU32_wrapS32, wrapU32_of_lt (by omega) hlt]

theorem toNat_mul_word : ((x * y).toNat : Int) = wrapU32 (x.toNat * y.toNat) := by
  rw [BitVec.toNat_mul]; push_cast; rfl

theorem toNat_udiv_word : ((x / y).toNat : Int) = udiv x.toNat y.toNat := by
  rw [udiv_eq_ediv _ (by omega), BitVec.toNat_udiv]; push_cast; rfl

theorem toNat_ushiftRight_word (n : Nat) : ((x >>> n).toNat : Int) = asr x.toNat n := by
  rw [asr_eq_ediv, BitVec.toNat_ushiftRight, Nat.shiftRight_eq_div_pow]; push_cast; rfl

theorem toInt_eq_zero_word : x.toInt = 0 ↔ x = 0#32 := by
  rw [← BitVec.toInt_zero (w := 32), BitVec.toInt_inj]

theorem toNat_eq_zero_word : (x.toNat : Int) = 0 ↔ x = 0#32 := by
  rw [Int.natCast_eq_zero, ← BitVec.toNat_inj, BitVec.toNat_ofNat, Nat.zero_mod]

theorem toWord_toInt : toWord x.toInt = x := BitVec.ofInt_toInt

end

theorem toInt_signExtend_word (v : BitVec 16) : (v.signExtend 32).toInt = v.toInt :=
  BitVec.toInt_signExtend_of_le (by decide)

/-- An unsigned value of fewer than 32 bits is the same number in a signed register (R195). -/
theorem toInt_setWidth_word {n : Nat} (hn : n < 32) (v : BitVec n) : (v.setWidth 32).toInt = v.toNat := by
  have hlt : v.toNat < 2 ^ 31 := lt_of_lt_of_le v.isLt (Nat.pow_le_pow_right (by decide) (by omega))
  have hnat : (v.setWidth 32).toNat = v.toNat := BitVec.toNat_setWidth_of_le hn.le
  rw [BitVec.toInt_eq_toNat_of_lt (by rw [hnat]; omega), hnat]

/-! Each step on 32-bit vectors, over the registers (R191 to R214) -/

section
variable (c : CalSet) (ut : BitVec 16) (up : BitVec 19) (oss : BitVec 2)

theorem stepT1_eq_toInt :
    stepT1 (compInput c ut up oss) =
      ((((ut.setWidth 32 - c.ac6.setWidth 32) * c.ac5.setWidth 32 : Word)).sshiftRight 15).toInt := by
  simp only [stepT1, compInput, toInt_sshiftRight_word, toInt_mul_word, toInt_sub_word, wrapS32_wrapS32_mul,
    toInt_setWidth_word (show 16 < 32 by decide)]

theorem stepT2Divisor_eq_toInt {x1 : Word} (h : stepT1 (compInput c ut up oss) = x1.toInt) :
    stepT2Divisor (compInput c ut up oss) = (x1 + c.md.signExtend 32).toInt := by
  rw [stepT2Divisor, h, toInt_add_word, toInt_signExtend_word]; rfl

theorem stepT3_eq_toInt {x1 d : Word} (hx1 : stepT1 (compInput c ut up oss) = x1.toInt)
    (hd : stepT2Divisor (compInput c ut up oss) = d.toInt) :
    stepT3 (compInput c ut up oss) = (x1 + (c.mc.signExtend 32 * 2048#32).sdiv d).toInt := by
  rw [stepT3, stepT2, hx1, hd, toInt_add_word, toInt_sdiv_word, toInt_mul_word, toInt_signExtend_word,
    wrapS32_add_wrapS32]
  rfl

theorem stepT4_eq_toInt (b5 : Word) : stepT4 b5.toInt = ((b5 + 8#32).sshiftRight 4).toInt := by
  rw [stepT4, toInt_sshiftRight_word, toInt_add_word]; rfl

theorem stepP1_eq_toInt (b5 : Word) : stepP1 b5.toInt = (b5 - 4000#32).toInt := by
  rw [stepP1, toInt_sub_word]; rfl

theorem stepQ_eq_toInt (b6 : Word) : stepQ b6.toInt = ((b6 * b6).sshiftRight 12).toInt := by
  rw [stepQ, toInt_sshiftRight_word, toInt_mul_word]

theorem stepP4_eq_toInt {b6 q : Word} (hq : stepQ b6.toInt = q.toInt) :
    stepP4 (compInput c ut up oss) b6.toInt =
      ((c.b2.signExtend 32 * q).sshiftRight 11 + (c.ac2.signExtend 32 * b6).sshiftRight 11).toInt := by
  simp only [stepP4, compInput, hq, toInt_add_word, toInt_sshiftRight_word, toInt_mul_word, toInt_signExtend_word]

theorem stepP5_eq_toInt {b6 x3 : Word} (hx3 : stepP4 (compInput c ut up oss) b6.toInt = x3.toInt) :
    stepP5 (compInput c ut up oss) b6.toInt =
      ((((c.ac1.signExtend 32 * 4#32 + x3) <<< oss.toNat) + 2#32).sshiftRight 2).toInt := by
  rw [stepP5, hx3, toInt_sshiftRight_word, toInt_add_word, toInt_shiftLeft_word, toInt_add_word, toInt_mul_word,
    toInt_signExtend_word, wrapS32_wrapS32_add]
  rfl

theorem stepP8_eq_toInt {b6 q : Word} (hq : stepQ b6.toInt = q.toInt) :
    stepP8 (compInput c ut up oss) b6.toInt =
      (((c.ac3.signExtend 32 * b6).sshiftRight 13 + (c.b1.signExtend 32 * q).sshiftRight 16
        + 2#32).sshiftRight 2).toInt := by
  simp only [stepP8, compInput, hq, toInt_add_word, toInt_sshiftRight_word, toInt_mul_word, toInt_signExtend_word]
  rfl

theorem stepP9_eq_toNat {b6 y3 : Word} (hy3 : stepP8 (compInput c ut up oss) b6.toInt = y3.toInt) :
    stepP9 (compInput c ut up oss) b6.toInt = ((c.ac4.setWidth 32 * (y3 + 32768#32)) >>> 15 : Word).toNat := by
  rw [stepP9, hy3, toNat_ushiftRight_word, toNat_mul_word, toNat_eq_wrapU32_toInt (y3 + _), toInt_add_word,
    BitVec.toNat_setWidth_of_le (by decide)]
  rfl

theorem stepP10_eq_toNat (b3 : Word) :
    stepP10 (compInput c ut up oss) b3.toInt = ((up.setWidth 32 - b3) * (50000#32 >>> oss.toNat) : Word).toNat := by
  rw [stepP10, toNat_mul_word, toNat_eq_wrapU32_toInt (_ - b3), toInt_sub_word, wrapU32_wrapS32,
    toInt_setWidth_word (by decide), toNat_ushiftRight_word]
  rfl

theorem quotientB7_eq_toNat (b7 b4 : Word) :
    quotientB7 b7.toNat b4.toNat = (if b7.toNat < 0x80000000 then (b7 * 2#32) / b4 else (b7 / b4) * 2#32).toNat := by
  unfold quotientB7
  split_ifs with h h' h'
  · rw [toNat_udiv_word, toNat_mul_word]; rfl
  · omega
  · omega
  · rw [toNat_mul_word, toNat_udiv_word]; rfl

theorem stepP15_eq_toInt (p : Word) :
    stepP15 p.toInt =
      (p + (((p.sshiftRight 8 * p.sshiftRight 8) * 3038#32).sshiftRight 16 + (-7357#32 * p).sshiftRight 16
        + 3791#32).sshiftRight 4).toInt := by
  simp only [stepP15, toInt_add_word, toInt_sshiftRight_word, toInt_mul_word]
  rfl

end

/-- Settles O35: each step, with its reductions, is the operation on 32-bit vectors. -/
theorem compensationIsA32BitDatapath : Obligations.CompensationIsA32BitDatapath := by
  intro c ut up oss s16 u16 x1 d b5 b6 q x3 b3 y3 b4 b7 p z1 z2
  have hx1 : stepT1 (compInput c ut up oss) = x1.toInt := stepT1_eq_toInt c ut up oss
  have hd : stepT2Divisor (compInput c ut up oss) = d.toInt := stepT2Divisor_eq_toInt c ut up oss hx1
  have hb5 : stepT3 (compInput c ut up oss) = b5.toInt := stepT3_eq_toInt c ut up oss hx1 hd
  have ht : stepT4 b5.toInt = ((b5 + 8).sshiftRight 4).toInt := stepT4_eq_toInt b5
  have hb6 : stepP1 b5.toInt = b6.toInt := stepP1_eq_toInt b5
  have hq : stepQ b6.toInt = q.toInt := stepQ_eq_toInt b6
  have hx3 : stepP4 (compInput c ut up oss) b6.toInt = x3.toInt := stepP4_eq_toInt c ut up oss hq
  have hb3 : stepP5 (compInput c ut up oss) b6.toInt = b3.toInt := stepP5_eq_toInt c ut up oss hx3
  have hy3 : stepP8 (compInput c ut up oss) b6.toInt = y3.toInt := stepP8_eq_toInt c ut up oss hq
  have hb4 : stepP9 (compInput c ut up oss) b6.toInt = b4.toNat := stepP9_eq_toNat c ut up oss hy3
  have hb7 : stepP10 (compInput c ut up oss) b3.toInt = b7.toNat := stepP10_eq_toNat c ut up oss b3
  have hp : stepP11 b7.toNat b4.toNat = p.toInt :=
    (congrArg wrapS32 (quotientB7_eq_toNat b7 b4)).trans (toInt_eq_wrapS32_toNat p).symm
  have hpout : stepP15 p.toInt = (p + (z1 + z2 + 3791).sshiftRight 4).toInt := stepP15_eq_toInt p
  rw [compensate_eq, hb5, hb6, hd, hb4, hb3, hb7, hp, hpout, ht, toWord_toInt, toWord_toInt]
  exact if_congr (or_congr (toInt_eq_zero_word d) (toNat_eq_zero_word b4)) rfl rfl

/-! COMP (R190, R215, R217) -/

section
variable {s : State} (hr : s.ready = true)
include hr

theorem exec_comp_unwritten (h : s.cal = none ∨ s.ut = none ∨ s.up = none) :
    exec .comp s = .next (s.faultedWith .unwritten 0xE0000000) := by
  rw [exec, execComp]
  split
  · next hc hut hup => simp [hc, hut, hup] at h
  · exact issueData_refused hr _

theorem exec_comp_of_inputs {c : CalSet} {ut : BitVec 16} {up : BitVec 19} (hc : s.cal = some c) (hut : s.ut = some ut)
    (hup : s.up = some up) :
    exec .comp s = .next ((compensate (compInput c ut up s.oss)).elim (s.faultedWith .divZero 0xE0000000)
      fun r => { s with result := some r }) := by
  rw [exec, execComp, hc, hut, hup]
  dsimp only
  cases compensate (compInput c ut up s.oss) with
  | none => exact issueData_refused hr _
  | some r => exact issueData_accepted hr _

end

/-- Settles O31: the inputs decide first, and then the two divisors. -/
theorem compCommitsOrFaults : Obligations.CompCommitsOrFaults := by
  refine ⟨spelledAndGuarded_of_row (r := opRows[13]) (List.getElem_mem _) rfl rfl,
    fun s hr h => exec_comp_unwritten hr h, fun s c ut up hr hc hut hup => ?_⟩
  intro x b5 b6
  have hexec := exec_comp_of_inputs hr hc hut hup
  refine ⟨fun h => ?_, fun hd hb4 => ?_, fun h => ?_, fun r h => ?_⟩
  · rw [hexec, compensate_eq, if_pos h]; rfl
  · rw [hexec, compensate_eq, if_neg (not_or.2 ⟨hd, hb4⟩)]; rfl
  · rw [hexec, h]; rfl
  · rw [hexec, h]; rfl

/-- Settles O38: `compInput` takes no MB, and the guard and the missing inputs do not look at the coefficients. -/
theorem compIgnoresMb : Obligations.CompIgnoresMb := by
  intro s c mb t hc ht
  rcases Bool.eq_false_or_eq_true s.err with he | he
  · obtain rfl := Host.Outcome.next.inj ((exec_err _ he).symm.trans ht)
    exact exec_err _ he
  rcases Bool.eq_false_or_eq_true s.busy with hb | hb
  · obtain rfl := Host.Outcome.next.inj ((exec_busy _ he hb).symm.trans ht)
    exact exec_busy _ he hb
  have hr : s.ready = true := by simp [State.ready, he, hb]
  by_cases hin : s.ut = none ∨ s.up = none
  · obtain rfl := Host.Outcome.next.inj ((exec_comp_unwritten hr (.inr hin)).symm.trans ht)
    exact exec_comp_unwritten hr (.inr hin)
  · simp only [not_or, Option.ne_none_iff_exists'] at hin
    obtain ⟨⟨ut, hut⟩, up, hup⟩ := hin
    obtain rfl := Host.Outcome.next.inj ((exec_comp_of_inputs hr hc hut hup).symm.trans ht)
    have hinput : compInput { c with mb := mb } ut up s.oss = compInput c ut up s.oss := rfl
    rw [exec_comp_of_inputs (s := { s with cal := some { c with mb := mb } }) hr rfl hut hup, hinput]
    cases compensate (compInput c ut up s.oss) <;> rfl

end Sys2Proof.Machine
end

section
/-! PROOFS. The block after a fault: no command and no access of the host changes it, a completion goes on as it would
have, and the first fault stays until a reset (R231, R233, R234, R236). -/

namespace Sys2Proof.Machine

/-! Which fault comes first (R232, R233) -/

/-- Settles O9: BUSY is checked before the word, the phase before the count, and the lock of CAL before the bytes. -/
theorem faultPriorityExamples : Obligations.FaultPriorityExamples := by
  refine fun s he => ⟨fun hb => ?busy, fun hp hb => ?phase, fun hb hcal _ => ?locked⟩
  case busy =>
    obtain ⟨-, hbusy, -⟩ := everyWordMeetsTheSameChecks 0x00000000 s
    exact hbusy he (s.busy_iff.1 hb)
  case phase =>
    have hdec : decode 0x9000AA00 = .ok (.rdblk 0xAA 0) := rfl
    obtain ⟨hq, hh⟩ := State.busy_eq_false.1 hb
    obtain ⟨-, -, hready⟩ := everyWordMeetsTheSameChecks 0x9000AA00 s
    obtain ⟨-, hsequence⟩ := hready he hq hh
    exact hsequence _ hdec (by simp [legalPhases, hp])
  case locked =>
    obtain ⟨⟨hdec, -⟩, -, -, hlocked⟩ := loadcalDecodesTheBytes
    rw [issue_of_decode hdec]
    exact hlocked s (State.ready_iff.2 ⟨he, State.busy_eq_false.1 hb⟩) hcal

/-! The host after a fault (R231, R234) -/

section
variable {s : State} (he : s.err = true)
include he

theorem issue_err (w : Word) : issue w s = .next s := (everyWordMeetsTheSameChecks w s).1 he

theorem regWrite_err (n : RegNum) (v : Word) : regWrite n v s = .next s := by
  unfold regWrite
  split
  · exact issue_err he v
  · rw [State.raise_again he]

theorem State.faultingRead_err (c : FaultCode) (n : RegNum) : s.faultingRead c n =
    { s with reads := s.reads ++ [⟨n, Config.drawWord s.draws⟩], draws := s.draws + 1 } := by
  rw [State.faultingRead, State.raise_again he]; rfl

/-- A read after a fault is noted, and the block stays as it is (R62, R231). -/
theorem State.regRead_err (n : RegNum) : ∃ rs k, s.regRead n = { s with reads := rs, draws := k } := by
  rcases s.regRead_cases n with ⟨v, -, h⟩ | ⟨-, h⟩ | ⟨-, h⟩
  · exact ⟨_, s.draws, h⟩
  · exact ⟨_, _, h.trans (State.faultingRead_err he _ n)⟩
  · exact ⟨_, _, h.trans (State.faultingRead_err he _ n)⟩

/-- After a fault a host's turn that is no reset changes the agents' own fields only (R234, R236). -/
theorem hostTurn_err (hn : s.host.head? ≠ some .reset) :
    ∃ p rs k, hostTurn s = .next { s with host := p, reads := rs, draws := k } := by
  unfold hostTurn
  split
  · exact ⟨s.host, s.reads, s.draws, rfl⟩
  · next n v p _ => exact ⟨p, s.reads, s.draws, regWrite_err (s := { s with host := p }) he n v⟩
  · next n p _ =>
    obtain ⟨rs, k, h⟩ := State.regRead_err (s := { s with host := p }) he n
    exact ⟨p, rs, k, congrArg _ h⟩
  · next p _ =>
    cases s.busy with
    | true => exact ⟨s.host, _, s.draws, congrArg _ s.regRead_status⟩
    | false => exact ⟨p, _, s.draws, congrArg _ (State.regRead_status { s with host := p })⟩
  · next p _ => exact ⟨p, s.reads, s.draws, rfl⟩
  · next p hh => exact absurd (by rw [hh]; rfl) hn

end

/-! A completion after a fault (R121, R234) -/

/-- No completion records a fault or clears one (R121). -/
theorem complete_keepsFault {a : Answer} {s t : State} (h : complete a s = .next t) :
    t.err = s.err ∧ t.errCode = s.errCode ∧ t.errInfo = s.errInfo := by
  rcases complete_cases h with ⟨-, hs⟩ | ⟨u, us, -, hc⟩
  · cases hs; exact ⟨rfl, rfl, rfl⟩
  · rcases completeOp_cases hc with ⟨_, _, _, _, rfl⟩ | ⟨_, rfl⟩ <;> exact ⟨rfl, rfl, rfl⟩

/-- A completion does not look at the fault fields, so a recorded fault changes nothing else in what it does (R234). -/
theorem completeOp_faultedWith {u : MicroOp} {a : Answer} {s t : State} (h : completeOp u a s = .next t)
    (c : FaultCode) (w : Word) : completeOp u a (s.faultedWith c w) = .next (t.faultedWith c w) := by
  cases u with
  | uWrite b =>
    rw [completeOp] at h ⊢
    cases hack : a.ack with
    | ack => rw [hack] at h; cases h; rfl
    | nack => rw [hack] at h; cases h; rfl
  | uRead =>
    rw [completeOp, completeRead] at h
    split at h
    · next hn => cases h; exact if_pos hn
    · cases h
  | _ => cases h; rfl

theorem complete_faultedWith {a : Answer} {s t : State} (h : complete a s = .next t) (c : FaultCode) (w : Word) :
    complete a (s.faultedWith c w) = .next (t.faultedWith c w) := by
  rcases complete_cases h with ⟨hq, hs⟩ | ⟨u, us, hq, hc⟩
  · cases hs; rw [complete, State.faultedWith_mq, hq]
  · rw [complete_of_mq (s := s.faultedWith c w) hq]
    exact completeOp_faultedWith hc c w

/-! What the first fault stops, and what clears it (R234, R236) -/

/-- Settles O45: what the host does after a fault is refused or only read, and a completion has no fault to record. -/
theorem firstFaultStays : Obligations.FirstFaultStays := by
  intro s t he hn h
  rcases step_cases s with ⟨-, ho⟩ | ⟨ts, ht, ho⟩ | ⟨a, ts, -, ho⟩ | ⟨ts, ht, -⟩
  · obtain rfl := Host.Outcome.next.inj (ho.symm.trans h)
    exact ⟨he, rfl, rfl⟩
  · have hhost : s.host.head? ≠ some .reset := by simpa [State.resetDue, ht] using hn
    obtain ⟨p, rs, k, hs⟩ := hostTurn_err (s := { s with turns := ts }) he hhost
    obtain rfl := Host.Outcome.next.inj ((ho.trans hs).symm.trans h)
    exact ⟨he, rfl, rfl⟩
  · obtain ⟨herr, hcode, hinfo⟩ := complete_keepsFault (ho.symm.trans h)
    exact ⟨herr.trans he, hcode, hinfo⟩
  · simp [State.resetDue, ht] at hn

/-- Settles O46: the guard ignores every word, a completion does not look at the fault, and STATUS always holds a value. -/
theorem faultedBlockIgnoresCommands : Obligations.FaultedBlockIgnoresCommands := by
  refine fun s he => ⟨issue_err he, fun a t h => ?completion, fun p ts ht hh => ?status⟩
  case completion =>
    have hs : State.faultedWith { s with err := false, errCode := .none, errInfo := 0 } s.errCode s.errInfo = s := by
      rw [State.faultedWith, ← he]
    rw [← hs]
    exact complete_faultedWith h s.errCode s.errInfo
  case status =>
    rw [step_of_host_read ht hh]
    exact congrArg _ (State.regRead_status { s with host := p, turns := ts })

end Sys2Proof.Machine
end

section
/-! PROOFS. What a reset leaves, as the external event and as the host's statement (R43, R99, R260). -/

namespace Sys2Proof.Machine

theorem step_of_reset_turn {s : State} {ts : List Turn} (ht : s.turns = .reset :: ts) :
    step s = .next (State.resetBlock { s with turns := ts }) := by
  rw [step, ht]; rfl

theorem step_of_host_reset {s : State} {p : List HostAction} {ts : List Turn} (ht : s.turns = .host :: ts)
    (hh : s.host = .reset :: p) : step s = .next (State.resetBlock { s with host := p, turns := ts }) := by
  simp only [step_of_host_turn ht, hostTurn, hh]

/-- Settles O49: both forms of reset run `resetBlock`, the host's with the statement taken off the program. -/
theorem resetValues : Obligations.ResetValues :=
  fun _ _ => ⟨step_of_reset_turn, fun _ => step_of_host_reset⟩

end Sys2Proof.Machine
end

section
/-! PROOFS. Infinite runs: what a turn of a run does, and why, in a run that meets the premises, BUSY falls again and again
and the host's program comes to its end (R72, R269, R270). -/

namespace Sys2Proof.Machine

/-! What a turn of a run does (R72) -/

theorem State.allows_host {s : State} : s.allows (some .host) = true ↔ s.host ≠ [] := by simp [State.allows]

theorem State.allows_bus {s : State} {a : Answer} : s.allows (some (.bus a)) = true ↔ s.mq ≠ [] := by
  simp [State.allows]

theorem completesAt_iff {turnAt : Nat → Option Turn} {r : Nat → State} {k : Nat} :
    CompletesAt turnAt r k ↔ (∃ a, turnAt k = some (.bus a)) ∧ (r k).mq ≠ [] := by
  cases ht : turnAt k with
  | none => simp [CompletesAt, State.completionDue, ht]
  | some t => cases t <;> simp [CompletesAt, State.completionDue, ht]

/-- What a host's turn does in a run: the phase and a queue that is not empty stay, unless it resets the block, and the host's
action is taken, unless it is a POLL that reads BUSY = 1 (R99, R120). -/
structure HostMoves (s t : State) : Prop where
  phase : t.phase = s.phase ∨ t.phase = .idle
  mq : s.mq ≠ [] → t.mq = s.mq ∨ t.mq = []
  host : (t.host = s.host ∧ s.busy = true) ∨ ∃ x, s.host = x :: t.host

theorem HostMoves.of_hostTurn {s t : State} (hh : s.host ≠ []) (h : hostTurn s = .next t) : HostMoves s t := by
  obtain ⟨u, hu, hphase, hmq, ⟨hnil, -⟩ | hhost⟩ := hostTurn_goes_on s
  · exact absurd hnil hh
  · obtain rfl := Host.Outcome.next.inj (hu.symm.trans h)
    exact ⟨hphase, hmq, hhost⟩

/-- A completion whose byte, if it writes one, is acknowledged does not hang the engine (R126, R128). -/
theorem completeOp_not_hung {u : MicroOp} {a : Answer} {s t : State} (ha : ∀ b, u = .uWrite b → a.ack = .ack)
    (h : completeOp u a s = .next t) : t.phase ≠ .hung := by
  have hack : completeOp u ⟨.ack, a.byte⟩ s = .next t := by
    cases u with
    | uWrite b => rw [← ha b rfl]; exact h
    | _ => exact h
  exact (completeOp_of_ack rfl hack).1

section
variable {turnAt : Nat → Option Turn} {r : Nat → State} (h : IsRun turnAt r)
include h

/-- Everything a step of a run can do: it rests, or one of the agents takes its turn. -/
theorem IsRun.turn_cases (k : Nat) :
    (turnAt k = none ∧ r (k + 1) = (r k).due none) ∨
    (turnAt k = some .host ∧ HostMoves (r k) (r (k + 1))) ∨
    (∃ a u us, turnAt k = some (.bus a) ∧ (r k).mq = u :: us ∧
      completeOp u a { (r k).due none with mq := us } = .next (r (k + 1))) ∨
    (turnAt k = some .reset ∧ r (k + 1) = ((r k).due none).resetBlock) := by
  have hs := h.moves k
  have ha := h.allowed k
  cases ht : turnAt k with
  | none => rw [ht] at hs; exact .inl ⟨rfl, (Host.Outcome.next.inj hs).symm⟩
  | some t =>
    rw [ht] at hs ha
    cases t with
    | host =>
      have hm : HostMoves ((r k).due none) (r (k + 1)) := .of_hostTurn (State.allows_host.1 ha) hs
      exact .inr (.inl ⟨rfl, { hm with }⟩)
    | bus a =>
      rcases complete_cases hs with ⟨hq, -⟩ | ⟨u, us, hq, hc⟩
      · exact absurd hq ((State.allows_bus (a := a)).1 ha)
      · exact .inr (.inr (.inl ⟨a, u, us, rfl, hq, hc⟩))
    | reset => exact .inr (.inr (.inr ⟨rfl, h.reset_turn ht⟩))

/-- Where every written byte is acknowledged the engine never hangs (R128). -/
theorem IsRun.phase_ne_hung (hacks : PeripheralAcks turnAt r) (h0 : (r 0).phase ≠ .hung) (k : Nat) :
    (r k).phase ≠ .hung := by
  induction k with
  | zero => exact h0
  | succ k ih =>
    rcases h.turn_cases k with ⟨-, ht⟩ | ⟨-, hm⟩ | ⟨a, u, us, ht, hq, hc⟩ | ⟨-, ht⟩
    · rw [ht]; exact ih
    · rcases hm.phase with hp | hp <;> rw [hp]
      · exact ih
      · decide
    · exact completeOp_not_hung (fun b hu => hacks k b us a (hu ▸ hq) ht) hc
    · simp [ht]

/-- A completion shortens the queue (R121). -/
theorem IsRun.mq_length_lt {k : Nat} (hc : CompletesAt turnAt r k) : (r (k + 1)).mq.length < (r k).mq.length := by
  obtain ⟨⟨a, hturn⟩, hq⟩ := completesAt_iff.1 hc
  obtain ⟨-, hmq | hmq⟩ := (onlyCompletionsAndResetMoveTheBus _ _ (h.moves k)).2 hc <;> rw [hmq]
  · simpa using List.length_pos_of_ne_nil hq
  · exact List.length_pos_of_ne_nil hq

/-- A queue that is not empty is refilled by no step: it stays, or a completion or a reset shortens it (R120, R121). -/
theorem IsRun.mq_length_le {k : Nat} (hq : (r k).mq ≠ []) : (r (k + 1)).mq.length ≤ (r k).mq.length := by
  rcases h.turn_cases k with ⟨-, ht⟩ | ⟨-, hm⟩ | ⟨a, u, us, ht, -, -⟩ | ⟨-, ht⟩
  · rw [ht]; exact le_rfl
  · rcases hm.mq hq with hmq | hmq <;> simp [hmq]
  · exact (h.mq_length_lt (completesAt_iff.2 ⟨⟨a, ht⟩, hq⟩)).le
  · simp [ht]

/-- No step gives the host's program an action back, a reset neither (log 14). -/
theorem IsRun.host_length_le (k : Nat) : (r (k + 1)).host.length ≤ (r k).host.length := by
  rcases h.turn_cases k with ⟨-, ht⟩ | ⟨-, hm⟩ | ⟨a, u, us, -, -, hc⟩ | ⟨-, ht⟩
  · rw [ht]; exact le_rfl
  · rcases hm.host with ⟨hhost, -⟩ | ⟨x, hhost⟩ <;> simp [hhost]
  · exact (congrArg List.length (completeOp_host hc)).le
  · rw [ht]; exact le_rfl

/-- Only the host's turn fills an empty queue (R120). -/
theorem IsRun.mq_nil_succ {k : Nat} (hq : (r k).mq = []) (ht : turnAt k ≠ some .host) : (r (k + 1)).mq = [] := by
  rcases h.turn_cases k with ⟨-, hr⟩ | ⟨hk, -⟩ | ⟨a, u, us, -, hu, -⟩ | ⟨-, hr⟩
  · rw [hr]; exact hq
  · exact absurd hk ht
  · simp [hq] at hu
  · rw [hr]; rfl

end

/-! BUSY falls (R270) -/

/-- A measure that never rises does not fall again and again. -/
theorem exists_eq_of_antitone {f : ℕ → ℕ} (hf : Antitone f) : ∃ n, ∀ m, n ≤ m → f n = f m :=
  WellFoundedGT.monotone_chain_condition ⟨OrderDual.toDual ∘ f, hf.dual_right⟩

section
variable {turnAt : Nat → Option Turn} {r : Nat → State} (h : IsRun turnAt r) (hresp : PeripheralResponsive turnAt r)
include h hresp

/-- In a run of a responsive peripheral the queue empties again and again: while it does not, its length falls with each
completion and never rises. -/
theorem IsRun.exists_mq_nil (k : Nat) : ∃ m, k ≤ m ∧ (r m).mq = [] := by
  by_contra hno
  have hpend : ∀ m, k ≤ m → (r m).mq ≠ [] := fun m hm hq => hno ⟨m, hm, hq⟩
  have hanti : Antitone fun d => (r (k + d)).mq.length :=
    antitone_nat_of_succ_le fun d => h.mq_length_le (hpend (k + d) (by omega))
  obtain ⟨n, hconst⟩ := exists_eq_of_antitone hanti
  obtain ⟨m, hm, hc⟩ := hresp.exists_completesAt_of_forall_mq_ne_nil (k := k + n) fun i hi => hpend i (by omega)
  obtain ⟨d, rfl⟩ := Nat.exists_eq_add_of_le (show k ≤ m by omega)
  have hlt : (r (k + (d + 1))).mq.length < (r (k + d)).mq.length := h.mq_length_lt hc
  have hd := hconst d (by omega)
  have hd1 := hconst (d + 1) (by omega)
  omega

theorem IsRun.exists_not_busy (hacks : PeripheralAcks turnAt r) (h0 : (r 0).phase ≠ .hung) (k : Nat) :
    ∃ m, k ≤ m ∧ (r m).busy = false := by
  obtain ⟨m, hm, hq⟩ := h.exists_mq_nil hresp k
  exact ⟨m, hm, State.busy_eq_false.2 ⟨hq, h.phase_ne_hung hacks h0 m⟩⟩

end

/-- Settles O58: the queue empties again and again, and the engine never hangs. -/
theorem busyFallsInEveryResponsiveRun : Obligations.BusyFallsInEveryResponsiveRun :=
  fun _ _ h hresp hacks h0 k => h.exists_not_busy hresp hacks h0 k

/-! The host's program ends (R269, R270) -/

section
variable {turnAt : Nat → Option Turn} {r : Nat → State} (h : IsRun turnAt r)
include h

/-- A host that no interrupt blocks gets a turn while it has an action left: during a transaction by `ISR_NONBLOCKING`,
outside one by what a run is. -/
theorem IsRun.exists_host_turn (hisr : IsrNonblocking turnAt r) (hhost : ∀ m, (r m).host ≠ []) (k : Nat) :
    ∃ m, k ≤ m ∧ turnAt m = some .host := by
  have houtside {i : Nat} (hi : k ≤ i) (ht : (r i).inTransaction = false) : ∃ m, k ≤ m ∧ turnAt m = some .host := by
    obtain ⟨m, hm, hturn, -⟩ := h.host_goes_on ht (hhost i)
    exact ⟨m, hi.trans hm, hturn⟩
  cases ht : (r k).inTransaction with
  | false => exact houtside le_rfl ht
  | true =>
    obtain ⟨m, hm, hturn | hover⟩ := hisr k ht (hhost k)
    · exact ⟨m, hm, hturn⟩
    · exact houtside hm hover

/-- From an empty queue on, the host's next turn still finds it empty. -/
theorem IsRun.next_host_turn {k m : Nat} (hkm : k ≤ m) (hq : (r k).mq = []) (hturn : turnAt m = some .host) :
    ∃ i, k ≤ i ∧ turnAt i = some .host ∧ (r i).mq = [] := by
  obtain ⟨d, rfl⟩ := Nat.exists_eq_add_of_le hkm
  induction d generalizing k with
  | zero => exact ⟨k, le_rfl, hturn, hq⟩
  | succ d ih =>
    by_cases hk : turnAt k = some .host
    · exact ⟨k, le_rfl, hk, hq⟩
    · obtain ⟨i, hi, hrest⟩ := ih (k := k + 1) (h.mq_nil_succ hq hk) (by omega)
        (by rw [show k + 1 + d = k + (d + 1) by omega]; exact hturn)
      exact ⟨i, by omega, hrest⟩

/-- A host's turn at BUSY = 0 takes the action, a POLL's too (R99). -/
theorem IsRun.host_length_lt {k : Nat} (hturn : turnAt k = some .host) (hb : (r k).busy = false) :
    (r (k + 1)).host.length < (r k).host.length := by
  rcases h.turn_cases k with ⟨ht, -⟩ | ⟨-, hm⟩ | ⟨_, _, _, ht, -, -⟩ | ⟨ht, -⟩
  · simp [ht] at hturn
  · rcases hm.host with ⟨-, hbusy⟩ | ⟨x, hx⟩
    · simp [hb] at hbusy
    · simp [hx]
  · simp [ht] at hturn
  · simp [ht] at hturn

/-- Under the three premises the host's program comes to its end: while it does not, the host gets turns at BUSY = 0 again
and again, and each takes an action. -/
theorem IsRun.exists_host_nil (hresp : PeripheralResponsive turnAt r) (hacks : PeripheralAcks turnAt r)
    (hisr : IsrNonblocking turnAt r) (h0 : (r 0).phase ≠ .hung) : ∃ k, (r k).host = [] := by
  by_contra! hhost
  obtain ⟨n, hconst⟩ := exists_eq_of_antitone (antitone_nat_of_succ_le (f := fun k => (r k).host.length) h.host_length_le)
  obtain ⟨k, hk, hq⟩ := h.exists_mq_nil hresp n
  obtain ⟨m, hm, hturn⟩ := h.exists_host_turn hisr hhost k
  obtain ⟨i, hi, hturn, hq⟩ := h.next_host_turn hm hq hturn
  have hlt := h.host_length_lt hturn (State.busy_eq_false.2 ⟨hq, h.phase_ne_hung hacks h0 i⟩)
  have hi0 := hconst i (by omega)
  have hi1 := hconst (i + 1) (by omega)
  omega

end

/-- Settles O59: once the host's program is over, BUSY falls a last time, and without a fault that is the end. -/
theorem hostProgramEndsOrFaults : Obligations.HostProgramEndsOrFaults := by
  intro turnAt r h hresp hacks hisr h0
  obtain ⟨k, hhost⟩ := h.exists_host_nil hresp hacks hisr h0
  obtain ⟨m, hm, hb⟩ := h.exists_not_busy hresp hacks h0 k
  cases he : (r m).err with
  | true => exact .inr ⟨m, he⟩
  | false => exact .inl ⟨m, by simp [State.ended, (h.rests hm hhost).1, hb, he, h.phase_ne_hung hacks h0 m]⟩

end Sys2Proof.Machine
end

section
/-! PROOFS. A run that stalls: the agent never completes, and the host polls for ever (R235, R270). -/

namespace Sys2Proof.Machine

/-- The state after a POLL has read STATUS and stays: only what the host read differs (R99). -/
def State.polled (s : State) : State := (s.due none).receive regStatus s.status

/-- The states of a run that polls for ever. -/
def State.polling (s : State) : Nat → State
  | 0     => s
  | k + 1 => (s.polling k).polled

theorem step_eq_polled {s : State} {p : List HostAction} (hb : s.busy = true) (hh : s.host = .poll :: p) :
    step (s.due (some .host)) = .next s.polled := by
  have hhost : (if (s.due (some .host)).busy then s.host else p) = s.host := if_pos hb
  rw [step_of_host_poll (s := s.due (some .host)) rfl hh, State.due_host, hhost]; rfl

theorem State.polling_keeps (s : State) (k : Nat) :
    (s.polling k).mq = s.mq ∧ (s.polling k).host = s.host ∧ (s.polling k).err = s.err := by
  induction k with
  | zero => exact ⟨rfl, rfl, rfl⟩
  | succ k ih => exact ih

/-- While a micro-op is pending, a host that only polls is a run. -/
theorem State.polling_isRun {s : State} {p : List HostAction} (hq : s.mq ≠ []) (hh : s.host = .poll :: p) :
    IsRun (fun _ => some .host) s.polling where
  moves k := by
    obtain ⟨hmq, hhost, -⟩ := s.polling_keeps k
    have hb : (s.polling k).busy = true := (State.busy_iff _).2 (.inl (by rw [hmq]; exact hq))
    exact step_eq_polled hb (hhost.trans hh)
  allowed k := by
    obtain ⟨-, hhost, -⟩ := s.polling_keeps k
    rw [State.allows_host, hhost, hh]; simp
  notResetsOnly k := ⟨k, le_rfl, by simp⟩

/-- Settles O60: every turn is the host's, and none of them ends the POLL. -/
theorem stallHangsWithoutResponsiveness : Obligations.StallHangsWithoutResponsiveness := by
  intro s p he hq hh
  choose hmq hhost herr using s.polling_keeps
  have hpend (k : Nat) : (s.polling k).mq ≠ [] := by rw [hmq]; exact hq
  have hnone (k : Nat) : ¬ CompletesAt (fun _ => some .host) s.polling k := by simp [completesAt_iff]
  refine ⟨fun _ => some .host, s.polling, rfl, State.polling_isRun hq hh, ?acks, ?isr, ?responsive, ?ready, ?hangs, ?ends,
    ?faults, hmq⟩
  case acks => intro k b us a _ ht; simp at ht
  case isr => exact fun k _ _ => ⟨k, le_rfl, .inl rfl⟩
  case responsive =>
    intro hresp
    obtain ⟨m, -, hc⟩ := hresp.exists_completesAt_of_forall_mq_ne_nil (k := 0) fun m _ => hpend m
    exact hnone m hc
  case ready =>
    intro hready
    obtain ⟨m, hc⟩ := hready ⟨0, fun m _ => hpend m⟩
    exact hnone m hc
  case hangs => exact ⟨0, .inr (.inl fun m _ => by simpa [State.isPending] using hpend m)⟩
  case ends => rintro ⟨k, hk⟩; simp [State.ended, hhost, hh] at hk
  case faults => rintro ⟨k, hk⟩; simp [State.hasFaulted, herr, he] at hk

end Sys2Proof.Machine
end
